-- ==== Sys2Proof/Word.lean ====
section
/-! DEFINITION. The two widths of the hardware's values (00_scope.md R6) and the size of its memory. -/

namespace Sys2Proof

/-- `u8`: the data width of `A`, `X`, `Y` and a memory cell (00_scope.md R6). -/
abbrev Byte := BitVec 8

/-- `u16`: the address width, and the width of `PC` and `SP` (00_scope.md R6). -/
abbrev Word := BitVec 16

/-- The number of byte cells of the one address space (00_scope.md R6, 20_memory.md R45). -/
def memorySize : Nat := 65536

end Sys2Proof
end

