-- ==== Sys2Proof/Config.lean ====
section
/-! DEFINITION. The one OPEN parameter of the hardware, `powerUpRegs` (92_eei_decisions.md D7). The spec's other two
parameters have values in the spec and stand where they are used: `opcodeValue` in Decode.lean (D1) and `jsrCycles` in
Machine/Cycles.lean (D4). -/

namespace Sys2Proof

/-- What a newly constructed Processor holds in `A`, `X`, `Y` and the eight flags (10_state.md R38). -/
structure PowerUpRegs where
  a : Byte
  x : Byte
  y : Byte
  c : Bool
  z : Bool
  i : Bool
  d : Bool
  b : Bool
  u : Bool
  v : Bool
  n : Bool
  deriving DecidableEq, Repr, Inhabited

/-- `powerUpRegs`, OPEN in the spec (70_reset_and_hazards.md R155): a constant with no body, so that nothing can be proved of
its value (log 7; safe). Only `newProcessor` reads it. -/
opaque Config.powerUpRegs : PowerUpRegs

end Sys2Proof
end

