-- ==== Sys2Proof/Machine/Bits.lean ====
section
/-! DEFINITION. The byte and word helpers of the notation (00_scope.md section 4): zero extension, the two bytes of a word and
`hi:lo`. -/

namespace Sys2Proof.Machine

/-- `zext_16(v)`: an 8-bit value zero-extended to 16 bits (00_scope.md section 4). -/
def zext16 (v : Byte) : Word := v.setWidth 16

/-- `w[7:0]`. -/
def loByte (w : Word) : Byte := w.setWidth 8

/-- `w[15:8]`. -/
def hiByte (w : Word) : Byte := (w >>> 8).setWidth 8

/-- `hi:lo`, that is `(hi << 8) | lo` (00_scope.md section 4). -/
def hiLo (hi lo : Byte) : Word := (zext16 hi <<< 8) ||| zext16 lo

end Sys2Proof.Machine
end

