-- ==== Sys2Proof/Syntax.lean ====
section
/-! DEFINITION. The seven instructions (00_scope.md R3), one constructor per row of spec/opcode_table.json. -/

namespace Sys2Proof

/-- An instruction with its assembled operand (30_encoding.md R66 to R70). An invalid opcode byte is no instruction: it is the
eighth outcome of decoding (R72), which the decoder answers as an error and the step reports. -/
inductive Instr where
  /-- `LDA #imm` (41_load.md R106). -/
  | ldaImm (imm : Byte)
  /-- `LDA zp` (41_load.md R107). -/
  | ldaZp (zp : Byte)
  /-- `LDA zp,X` (41_load.md R108). -/
  | ldaZpx (base : Byte)
  /-- `ADC #imm` (42_arithmetic.md R113). -/
  | adcImm (imm : Byte)
  /-- `ADC zp` (42_arithmetic.md R114). -/
  | adcZp (zp : Byte)
  /-- `ADC zp,X` (42_arithmetic.md R115). -/
  | adcZpx (base : Byte)
  /-- `JSR abs` (43_control.md R122). -/
  | jsrAbs (target : Word)
  deriving DecidableEq, Repr

end Sys2Proof
end

