-- ==== Sys2Proof/Decode.lean ====
section
/-! DEFINITION. Decoding and encoding (30_encoding.md): the opcode table, the total decoder over bytes, the encoder, and the
decoder on a word numbered as spec/opcode_table.json numbers it. -/

namespace Sys2Proof

open Sys2Proof.Machine (loByte hiByte hiLo)

/-- The recognised outcomes of decoding an opcode byte (30_encoding.md R72), under the names of the spec's `Decode`. -/
inductive Opcode where
  | ldaImm
  | ldaZp
  | ldaZpx
  | adcImm
  | adcZp
  | adcZpx
  | jsrAbs
  deriving DecidableEq, Repr

/-- The opcode byte of each instruction (30_encoding.md R71): the parameter `opcodeValue` at the spec's own choice, the NMOS
6502 values (92_eei_decisions.md D1). UNVERIFIED (log 1; unsafe): the one table to correct if the block uses other values. -/
def opcodeValue : Opcode → Byte
  | .ldaImm => 0xA9
  | .ldaZp => 0xA5
  | .ldaZpx => 0xB5
  | .adcImm => 0x69
  | .adcZp => 0x65
  | .adcZpx => 0x75
  | .jsrAbs => 0x20

/-- `Decode(op)` of 30_encoding.md R72: it compares the whole byte, and `none` is the outcome `Invalid`. -/
def opcodeOfByte (op : Byte) : Option Opcode :=
  if op = opcodeValue .ldaImm then some .ldaImm
  else if op = opcodeValue .ldaZp then some .ldaZp
  else if op = opcodeValue .ldaZpx then some .ldaZpx
  else if op = opcodeValue .adcImm then some .adcImm
  else if op = opcodeValue .adcZp then some .adcZp
  else if op = opcodeValue .adcZpx then some .adcZpx
  else if op = opcodeValue .jsrAbs then some .jsrAbs
  else none

/-- How many operand bytes follow the opcode byte (30_encoding.md R66, R73). -/
def operandCount : Opcode → Nat
  | .ldaImm => 1
  | .ldaZp => 1
  | .ldaZpx => 1
  | .adcImm => 1
  | .adcZp => 1
  | .adcZpx => 1
  | .jsrAbs => 2

/-- How many operand bytes follow a fetched byte read as an opcode; an invalid opcode takes none (30_encoding.md R77). -/
def operandCountOfByte (op : Byte) : Nat :=
  match opcodeOfByte op with
  | some o => operandCount o
  | none => 0

/-- Why bytes do not decode. -/
inductive DecodeError where
  /-- The first byte is not one of the seven opcodes (30_encoding.md R77). -/
  | invalidOpcode (byte : Byte)
  /-- The list ends before the instruction does; the Processor never meets this, for it fetches what the opcode asks for. -/
  | truncated
  deriving DecidableEq, Repr

/-- The instruction at the front of a list of bytes, and the bytes after it (30_encoding.md R66 to R72). -/
def decode : List Byte → Except DecodeError (Instr × List Byte)
  | [] => .error .truncated
  | op :: rest =>
    match opcodeOfByte op, rest with
    | some .ldaImm, imm :: rest => .ok (.ldaImm imm, rest)
    | some .ldaZp, zp :: rest => .ok (.ldaZp zp, rest)
    | some .ldaZpx, base :: rest => .ok (.ldaZpx base, rest)
    | some .adcImm, imm :: rest => .ok (.adcImm imm, rest)
    | some .adcZp, zp :: rest => .ok (.adcZp zp, rest)
    | some .adcZpx, base :: rest => .ok (.adcZpx base, rest)
    | some .jsrAbs, lo :: hi :: rest => .ok (.jsrAbs (hiLo hi lo), rest)
    | some _, _ => .error .truncated
    | none, _ => .error (.invalidOpcode op)

/-- The opcode of an instruction. -/
def opcodeOf : Instr → Opcode
  | .ldaImm _ => .ldaImm
  | .ldaZp _ => .ldaZp
  | .ldaZpx _ => .ldaZpx
  | .adcImm _ => .adcImm
  | .adcZp _ => .adcZp
  | .adcZpx _ => .adcZpx
  | .jsrAbs _ => .jsrAbs

/-- The bytes of an instruction, in the order they stand in memory (30_encoding.md R66, R81). -/
def encode : Instr → List Byte
  | .ldaImm imm => [opcodeValue .ldaImm, imm]
  | .ldaZp zp => [opcodeValue .ldaZp, zp]
  | .ldaZpx base => [opcodeValue .ldaZpx, base]
  | .adcImm imm => [opcodeValue .adcImm, imm]
  | .adcZp zp => [opcodeValue .adcZp, zp]
  | .adcZpx base => [opcodeValue .adcZpx, base]
  | .jsrAbs target => [opcodeValue .jsrAbs, loByte target, hiByte target]

/-- The number of bytes of an instruction, opcode byte included (30_encoding.md R71). -/
def instrLength (i : Instr) : Nat := 1 + operandCount (opcodeOf i)

/-- A word numbered as spec/opcode_table.json numbers it (bit 0 is the least significant bit of the first byte), laid out as
the three bytes of the longest instruction; every bit at or above `nbits` is 0. -/
def tableBytes (nbits w : Nat) : List Byte :=
  [BitVec.ofNat 8 (w % 2 ^ nbits), BitVec.ofNat 8 (w % 2 ^ nbits / 256), BitVec.ofNat 8 (w % 2 ^ nbits / 65536)]

/-- What the decoder reads from an instruction whose table word is `w`. -/
def decodeTableWord (nbits w : Nat) : Option Instr :=
  match decode (tableBytes nbits w) with
  | .ok (i, _) => some i
  | .error _ => none

end Sys2Proof
end

