-- ==== Sys2Proof/Machine/State.lean ====
section
/-! DEFINITION. The state of the machine (10_state.md), why an operation can stop, and the state right after reset. -/

namespace Sys2Proof.Machine

/-- The names of the two 16-bit registers (10_state.md R20). -/
inductive Reg16 where
  | pc
  | sp
  deriving DecidableEq, Repr

/-- The names of the three 8-bit registers (10_state.md R20). -/
inductive Reg8 where
  | a
  | x
  | y
  deriving DecidableEq, Repr

/-- The names of the eight flags (10_state.md R26). -/
inductive FlagName where
  | c
  | z
  | i
  | d
  | b
  | u
  | v
  | n
  deriving DecidableEq, Repr

/-- The eight independent one-bit flags (10_state.md R26). -/
structure Flags where
  /-- carry (R28) -/
  c : Bool
  /-- zero (R29) -/
  z : Bool
  /-- interrupt_disable (R32) -/
  i : Bool
  /-- decimal (R32) -/
  d : Bool
  /-- break_command (R32) -/
  b : Bool
  /-- unused/reserved (R32) -/
  u : Bool
  /-- overflow (R31) -/
  v : Bool
  /-- negative (R30) -/
  n : Bool
  deriving DecidableEq, Repr

/-- All eight flags 0 (70_reset_and_hazards.md R157). -/
def Flags.clear : Flags :=
  { c := false, z := false, i := false, d := false, b := false, u := false, v := false, n := false }

/-- One record of the invalid-opcode report stream (10_state.md R36): the address a byte was fetched from and the byte. -/
structure Report where
  addr : Word
  byte : Byte
  deriving DecidableEq, Repr

/-- A piece of state that construction leaves at its OPEN power-up value (10_state.md R38). -/
inductive PowerUpItem where
  | reg (r : Reg8)
  | flag (f : FlagName)
  deriving DecidableEq, Repr

/-- Every piece of state with an OPEN power-up value: `A`, `X`, `Y` and the eight flags (10_state.md R38). -/
def PowerUpItem.all : List PowerUpItem :=
  [.reg .a, .reg .x, .reg .y, .flag .c, .flag .z, .flag .i, .flag .d, .flag .b, .flag .u, .flag .v, .flag .n]

/-- The memory array (10_state.md R37) as the cells that differ from what an unlisted address reads as. -/
abbrev Memory := List Host.Cell

/-- What an address that no cell lists reads as: the construction value of memory (70_reset_and_hazards.md R156). -/
def Memory.unlisted : Byte := 0x00

/-- The canonical form from address `lo` up: addresses strictly rising and inside the address space, no entry equal to what an
unlisted address reads as. -/
def Memory.wfFrom (lo : Nat) : Memory → Bool
  | [] => true
  | (k, v) :: rest => decide (lo ≤ k) && decide (k < memorySize) && decide (v ≠ Memory.unlisted) && Memory.wfFrom (k + 1) rest

/-- The canonical form of memory. -/
def Memory.wf (m : Memory) : Bool := Memory.wfFrom 0 m

/-- Everything the spec gives the machine (10_state.md R20, R26, R35, R36, R37), and one field of the model's own,
`powerUp`. -/
structure State where
  /-- `PC`, program_counter (R21) -/
  pc : Word
  /-- `SP`, stack_register (R22) -/
  sp : Word
  /-- `A`, accumulator (R23) -/
  a : Byte
  /-- `X`, index_register_x (R24) -/
  x : Byte
  /-- `Y`, index_register_y (R25) -/
  y : Byte
  /-- the eight flags (R26) -/
  flags : Flags
  /-- `cycles`, the remaining-cycle counter (R35): it exists only during an `execute` call, `none` between calls -/
  cycles : Option Int
  /-- the invalid-opcode report stream, oldest first (R36) -/
  reports : List Report
  /-- the memory array (R37) -/
  mem : Memory
  /-- MODEL'S OWN (log 8): which pieces of state have not been written since construction, neither by reset nor by the host,
  so that an `execute` may be refused as 70_reset_and_hazards.md R160 says; no repeats -/
  powerUp : List PowerUpItem
  deriving DecidableEq, Repr

/-- Why an operation fails with an error the spec names. -/
inductive Fault where
  /-- AddressOutOfRange (60_exceptions.md R131), carrying the failing index. Raised only by the host's memory operations
  (`portDo` and the `Memory` contract under it, R149), never by a step. The spec's own failure of that operation: safe. -/
  | addressOutOfRange (index : Nat)
  deriving DecidableEq, Repr

/-- Why the model takes no move. -/
inductive Refusal where
  /-- Reserved for an instruction without a meaning; no arm of `exec` raises it now. Safe. -/
  | notModelled (mnemonic : String)
  /-- An `execute` on a Processor that was never reset and on which the host has not written every item of `powerUp`
  (70_reset_and_hazards.md R160: "A model refuses that `execute`"). Raised by `beginCall`. Safe. -/
  | executeBeforeReset
  /-- A host operation while an `execute` call runs (60_exceptions.md R147; 93_implementation_defined.md I14: refuse). Raised
  by `portDo` and `beginCall`. Safe. -/
  | hostDuringExecute
  deriving DecidableEq, Repr

/-- The machine right after reset (10_state.md R38, 70_reset_and_hazards.md R157): a new memory, a new Processor, then
`reset()`. -/
def State.reset : State :=
  { pc := 0xFFFC
    sp := 0x00FF
    a := 0x00
    x := 0x00
    y := 0x00
    flags := Flags.clear
    cycles := none
    reports := []
    mem := []
    powerUp := [] }

end Sys2Proof.Machine
end

