-- ==== Sys2Proof/Machine/Ops.lean ====
section
/-! DEFINITION. The named operations over memory and registers: the memory component's contract (20_memory.md), the Processor's
primitives and their cycle charges (40_engine.md R88 to R92), the stack push (43_control.md R121), the InvalidOpcode outcome
(60_exceptions.md R130), construction and reset (70_reset_and_hazards.md R155 to R157). The hardware has no trap mechanism and
no return from trap (60_exceptions.md R137, R138), so there is no exception entry here. -/

namespace Sys2Proof.Machine

/-- `MemRead(addr, 1)` (00_scope.md R8). -/
def Memory.read : Memory → Nat → Byte
  | [], _ => Memory.unlisted
  | (k, v) :: rest, addr => if k = addr then v else Memory.read rest addr

/-- `MemWrite(addr, 1, v)` (00_scope.md R8), keeping the canonical form: the value an unlisted address reads as is not
listed. -/
def Memory.write : Memory → Nat → Byte → Memory
  | [], addr, v => if v = Memory.unlisted then [] else [(addr, v)]
  | (k, w) :: rest, addr, v =>
    if addr < k then
      if v = Memory.unlisted then (k, w) :: rest else (addr, v) :: (k, w) :: rest
    else if addr = k then
      if v = Memory.unlisted then rest else (addr, v) :: rest
    else (k, w) :: Memory.write rest addr v

/-- `read_byte(addr)` of the memory component (20_memory.md R47). -/
def Memory.readByte (m : Memory) (index : Nat) : Except Fault Byte :=
  if index < memorySize then .ok (m.read index) else .error (.addressOutOfRange index)

/-- `write_byte(addr, value)` of the memory component (20_memory.md R48). -/
def Memory.writeByte (m : Memory) (index : Nat) (v : Byte) : Except Fault Memory :=
  if index < memorySize then .ok (m.write index v) else .error (.addressOutOfRange index)

/-- The address of the high byte of a word: the next address, 0x0000 after 0xFFFF (20_memory.md R51). -/
def nextIndex (index : Nat) : Nat := (index + 1) % memorySize

/-- `read_word(addr)`: little-endian, wrapping at 0xFFFF (20_memory.md R50, R51). -/
def Memory.readWord (m : Memory) (index : Nat) : Except Fault Word :=
  if index < memorySize then .ok (hiLo (m.read (nextIndex index)) (m.read index)) else .error (.addressOutOfRange index)

/-- `write_word(addr, value)`: little-endian, wrapping at 0xFFFF (20_memory.md R50, R51). -/
def Memory.writeWord (m : Memory) (index : Nat) (v : Word) : Except Fault Memory :=
  if index < memorySize then .ok ((m.write index (loByte v)).write (nextIndex index) (hiByte v))
  else .error (.addressOutOfRange index)

/-- `Charge(n)` (00_scope.md R9): it may take `cycles` below zero (40_engine.md R87); between calls there is no counter to
charge (10_state.md R35). -/
def charge (n : Nat) (s : State) : State :=
  { s with cycles := s.cycles.map (fun c => c - n) }

/-- `FetchByte()` (40_engine.md R88): the byte at `PC`, with `PC` advanced modulo 2^16 and 1 cycle charged. -/
def fetchByte (s : State) : Byte × State :=
  (s.mem.read s.pc.toNat, charge 1 { s with pc := s.pc + 1 })

/-- `n` calls of `FetchByte()` in a row, the first byte first (40_engine.md R88, R89). -/
def fetchBytes : Nat → State → List Byte × State
  | 0, s => ([], s)
  | n + 1, s =>
    let first := fetchByte s
    let later := fetchBytes n first.2
    (first.1 :: later.1, later.2)

/-- `ReadByte(addr)` (40_engine.md R90). -/
def readByte (addr : Word) (s : State) : Byte × State :=
  (s.mem.read addr.toNat, charge 1 s)

/-- `WriteByte(addr, v)` (40_engine.md R91). -/
def writeByte (addr : Word) (v : Byte) (s : State) : State :=
  charge 1 { s with mem := s.mem.write addr.toNat v }

/-- `Push(v)` (43_control.md R121): write at the full 16-bit `SP`, then decrement `SP` modulo 2^16, 1 cycle each (D3, D4; log 3
and log 4). -/
def push (v : Byte) (s : State) : State :=
  let t := writeByte s.sp v s
  charge 1 { t with sp := t.sp - 1 }

/-- `report InvalidOpcode(addr, byte)` (00_scope.md R10, 60_exceptions.md R130): one record is appended and nothing else
changes. -/
def reportInvalid (addr : Word) (byte : Byte) (s : State) : State :=
  { s with reports := s.reports ++ [{ addr := addr, byte := byte }] }

/-- `new_memory()`: every byte 0x00 (70_reset_and_hazards.md R156). -/
def newMemory (s : State) : State :=
  { s with mem := [] }

/-- `new_processor()` (70_reset_and_hazards.md R155): `PC` and `SP` at their power-up defaults, the rest OPEN `powerUpRegs`, an
empty report stream (10_state.md R38), no call running. Memory is the host's and stays. -/
def newProcessor (s : State) : State :=
  { pc := 0xFFFC
    sp := 0x0100
    a := Config.powerUpRegs.a
    x := Config.powerUpRegs.x
    y := Config.powerUpRegs.y
    flags :=
      { c := Config.powerUpRegs.c, z := Config.powerUpRegs.z, i := Config.powerUpRegs.i, d := Config.powerUpRegs.d,
        b := Config.powerUpRegs.b, u := Config.powerUpRegs.u, v := Config.powerUpRegs.v, n := Config.powerUpRegs.n }
    cycles := none
    reports := []
    mem := s.mem
    powerUp := PowerUpItem.all }

/-- `Reset()` (70_reset_and_hazards.md R157): registers and flags; no memory, no cycles, no report. It writes every item with a
power-up value, so none is left. -/
def resetProcessor (s : State) : State :=
  { s with
    pc := 0xFFFC
    sp := 0x00FF
    a := 0x00
    x := 0x00
    y := 0x00
    flags := Flags.clear
    powerUp := [] }

end Sys2Proof.Machine
end

