-- ==== Sys2Proof/Machine/Cycles.lean ====
section
/-! DEFINITION. The table of cycle totals (40_engine.md R94), opcode fetch included. The meanings charge by primitives; a
statement says that the charges add up to this table. -/

namespace Sys2Proof.Machine

/-- The parameter `jsrCycles` at the spec's value (92_eei_decisions.md D4). UNVERIFIED (log 4; unsafe). -/
def jsrCycles : Nat := 7

/-- The total an instruction charges (40_engine.md R94). -/
def cycleTotal : Instr → Nat
  | .ldaImm _ => 2
  | .ldaZp _ => 3
  | .ldaZpx _ => 4
  | .adcImm _ => 2
  | .adcZp _ => 3
  | .adcZpx _ => 4
  | .jsrAbs _ => jsrCycles

/-- The total an invalid opcode charges: its fetch (40_engine.md R94). -/
def invalidCycles : Nat := 1

end Sys2Proof.Machine
end

