-- ==== Sys2Proof/Machine/Flags.lean ====
section
/-! DEFINITION. Every flag computation (41_load.md R105, 42_arithmetic.md R110, R111), the flags by name (10_state.md R26) and
the flags viewed as one byte (R27). -/

namespace Sys2Proof.Machine

/-- Bit 7 of a byte: `v[7]`. -/
def bit7 (v : Byte) : Bool := v.getLsbD 7

/-- The load status (41_load.md R105): `Z` and `N` from the value loaded, no other flag touched. -/
def loadFlags (f : Flags) (value : Byte) : Flags :=
  { f with z := value == 0x00, n := bit7 value }

/-- The integer sum of ADC, in 0..511 (42_arithmetic.md R110). -/
def adcSum (a m : Byte) (carryIn : Bool) : Nat := a.toNat + m.toNat + carryIn.toNat

/-- The low 8 bits of the sum (42_arithmetic.md R110). -/
def adcResult (a m : Byte) (carryIn : Bool) : Byte := BitVec.ofNat 8 (adcSum a m carryIn)

/-- `sum > 0xFF` (42_arithmetic.md R110). -/
def adcCarry (a m : Byte) (carryIn : Bool) : Bool := decide (adcSum a m carryIn > 0xFF)

/-- The overflow formula over the accumulator before the instruction, the operand and the result (42_arithmetic.md R111). -/
def overflowFlag (a m result : Byte) : Bool := (~~~(a ^^^ m) &&& (a ^^^ result) &&& 0x80) != 0

/-- The four flags of ADC (42_arithmetic.md R110): `I`, `D`, `B` and `U` are unchanged. -/
def adcFlags (f : Flags) (a m : Byte) : Flags :=
  { f with
    c := adcCarry a m f.c
    z := adcResult a m f.c == 0x00
    n := bit7 (adcResult a m f.c)
    v := overflowFlag a m (adcResult a m f.c) }

/-- A flag read by name. -/
def getFlag (f : Flags) : FlagName → Bool
  | .c => f.c
  | .z => f.z
  | .i => f.i
  | .d => f.d
  | .b => f.b
  | .u => f.u
  | .v => f.v
  | .n => f.n

/-- A flag written by name; the other seven are unchanged. -/
def putFlag (f : Flags) (name : FlagName) (bit : Bool) : Flags :=
  match name with
  | .c => { f with c := bit }
  | .z => { f with z := bit }
  | .i => { f with i := bit }
  | .d => { f with d := bit }
  | .b => { f with b := bit }
  | .u => { f with u := bit }
  | .v => { f with v := bit }
  | .n => { f with n := bit }

/-- The bit position of a flag in the packed byte (10_state.md R27; D15, log 13). -/
def flagPosition : FlagName → Nat
  | .c => 0
  | .z => 1
  | .i => 2
  | .d => 3
  | .b => 4
  | .u => 5
  | .v => 6
  | .n => 7

/-- One bit moved to a position of a byte. -/
def bitAt (bit : Bool) (position : Nat) : Byte := (BitVec.ofBool bit).setWidth 8 <<< position

/-- The flags viewed as the byte `P` (10_state.md R27). No instruction reads or writes it. -/
def packedFlags (f : Flags) : Byte :=
  bitAt f.n (flagPosition .n) ||| bitAt f.v (flagPosition .v) ||| bitAt f.u (flagPosition .u) |||
    bitAt f.b (flagPosition .b) ||| bitAt f.d (flagPosition .d) ||| bitAt f.i (flagPosition .i) |||
    bitAt f.z (flagPosition .z) ||| bitAt f.c (flagPosition .c)

/-- The flags that a byte `P` stands for (10_state.md R27). -/
def unpackedFlags (p : Byte) : Flags :=
  { c := p.getLsbD (flagPosition .c)
    z := p.getLsbD (flagPosition .z)
    i := p.getLsbD (flagPosition .i)
    d := p.getLsbD (flagPosition .d)
    b := p.getLsbD (flagPosition .b)
    u := p.getLsbD (flagPosition .u)
    v := p.getLsbD (flagPosition .v)
    n := p.getLsbD (flagPosition .n) }

end Sys2Proof.Machine
end

