-- ==== Sys2Proof/Machine/Operands.lean ====
section
/-! DEFINITION. The operand forms (30_encoding.md R67 to R69): how an operand byte becomes the 8-bit value an instruction works
on, with the cycles the form charges beyond the fetch (40_engine.md R94). The absolute form (R70) is assembled by the decoder. -/

namespace Sys2Proof.Machine

/-- The effective address of the zero-page form (30_encoding.md R68). -/
def zpAddress (zp : Byte) : Word := zext16 zp

/-- The effective address of the zero-page,X form: an 8-bit wraparound add (30_encoding.md R69). -/
def zpxAddress (base x : Byte) : Word := zext16 (base + x)

/-- `imm8`: the operand is the fetched byte itself (30_encoding.md R67). -/
def immOperand (imm : Byte) (s : State) : Byte × State := (imm, s)

/-- `zp8`: one data read at the zero-page address (41_load.md R107). -/
def zpOperand (zp : Byte) (s : State) : Byte × State := readByte (zpAddress zp) s

/-- `zpx8`: the index computation charges 1 cycle and makes no memory access, then one data read (41_load.md R108; D5, log 5). -/
def zpxOperand (base : Byte) (s : State) : Byte × State := readByte (zpxAddress base s.x) (charge 1 s)

end Sys2Proof.Machine
end

