-- ==== Sys2Proof/Machine/Arithmetic.lean ====
section
/-! DEFINITION. The ADC family (42_arithmetic.md). A meaning runs after the instruction's bytes have been fetched and charged (log 16). -/

namespace Sys2Proof.Machine

/-- `AdcCore(m)` (42_arithmetic.md R110): the flags from the accumulator before the instruction, then the accumulator. Always
binary, whatever `D` holds (R112; D8, log 9). The pair is an operand and the state after it was read. -/
def adcCore (operand : Byte × State) : State :=
  { operand.2 with
    flags := adcFlags operand.2.flags operand.2.a operand.1
    a := adcResult operand.2.a operand.1 operand.2.flags.c }

/-- `AdcImm()` (42_arithmetic.md R113). -/
def execAdcImm (imm : Byte) (s : State) : Host.Outcome State Fault Refusal :=
  .next (adcCore (immOperand imm s))

/-- `AdcZp()` (42_arithmetic.md R114). -/
def execAdcZp (zp : Byte) (s : State) : Host.Outcome State Fault Refusal :=
  .next (adcCore (zpOperand zp s))

/-- `AdcZpx()` (42_arithmetic.md R115). -/
def execAdcZpx (base : Byte) (s : State) : Host.Outcome State Fault Refusal :=
  .next (adcCore (zpxOperand base s))

end Sys2Proof.Machine
end

