-- ==== Sys2Proof/Machine/Control.lean ====
section
/-! DEFINITION. JSR, the only control transfer (43_control.md). A meaning runs after the instruction's bytes have been fetched
and charged (log 16), so `PC` holds the address after the operand. -/

namespace Sys2Proof.Machine

/-- The return address JSR pushes: the address after the operand minus 1, modulo 2^16 (43_control.md R120). -/
def returnAddress (afterOperand : Word) : Word := afterOperand - 1

/-- `JsrAbs()` (43_control.md R122): the high byte is pushed first, then the low byte, then `PC` takes the target. -/
def execJsrAbs (target : Word) (s : State) : Host.Outcome State Fault Refusal :=
  let ret := returnAddress s.pc
  .next { push (loByte ret) (push (hiByte ret) s) with pc := target }

end Sys2Proof.Machine
end

