-- ==== Sys2Proof/Machine/Load.lean ====
section
/-! DEFINITION. The LDA family (41_load.md). A meaning runs after the instruction's bytes have been fetched and charged (log 16). -/

namespace Sys2Proof.Machine

/-- Write `A` and then the load status (41_load.md R105); the pair is an operand and the state after it was read. -/
def loadAcc (operand : Byte × State) : State :=
  { operand.2 with a := operand.1, flags := loadFlags operand.2.flags operand.1 }

/-- `LdaImm()` (41_load.md R106). -/
def execLdaImm (imm : Byte) (s : State) : Host.Outcome State Fault Refusal :=
  .next (loadAcc (immOperand imm s))

/-- `LdaZp()` (41_load.md R107). -/
def execLdaZp (zp : Byte) (s : State) : Host.Outcome State Fault Refusal :=
  .next (loadAcc (zpOperand zp s))

/-- `LdaZpx()` (41_load.md R108). -/
def execLdaZpx (base : Byte) (s : State) : Host.Outcome State Fault Refusal :=
  .next (loadAcc (zpxOperand base s))

end Sys2Proof.Machine
end

