-- ==== Sys2Proof/Machine/Dispatch.lean ====
section
/-! DEFINITION. The handler of each instruction (40_engine.md R93), run on a state whose `PC` is past the instruction's bytes. -/

namespace Sys2Proof.Machine

/-- The meaning of an instruction whose bytes have been fetched (40_engine.md R93). -/
def exec (i : Instr) (s : State) : Host.Outcome State Fault Refusal :=
  match i with
  | .ldaImm imm => Sys2Proof.Machine.execLdaImm imm s
  | .ldaZp zp => Sys2Proof.Machine.execLdaZp zp s
  | .ldaZpx base => Sys2Proof.Machine.execLdaZpx base s
  | .adcImm imm => Sys2Proof.Machine.execAdcImm imm s
  | .adcZp zp => Sys2Proof.Machine.execAdcZp zp s
  | .adcZpx base => Sys2Proof.Machine.execAdcZpx base s
  | .jsrAbs target => Sys2Proof.Machine.execJsrAbs target s

end Sys2Proof.Machine
end

