-- ==== Sys2Proof/Machine/Engine.lean ====
section
/-! DEFINITION. The execute loop's parts (40_engine.md): fetching an instruction's bytes, `Step()`, and one pass of the loop
with its test at the instruction boundary. -/

namespace Sys2Proof.Machine

/-- What the bytes at `PC` turned out to be, with the state after they were fetched. -/
inductive Fetched where
  /-- One of the seven instructions, its operand bytes fetched too. -/
  | instr (i : Instr) (s : State)
  /-- The outcome `Invalid` (30_encoding.md R72): the opcode's address, the byte, and the state after the one fetch. -/
  | invalid (addr : Word) (byte : Byte) (s : State)
  deriving DecidableEq, Repr

/-- The opcode fetch, decode and operand fetches of `Step()` (40_engine.md R93): the operand bytes are fetched one by one, as
many as the opcode asks for (30_encoding.md R73). -/
def fetchInstr (s : State) : Fetched :=
  let op := fetchByte s
  let operands := fetchBytes (operandCountOfByte op.1) op.2
  match decode (op.1 :: operands.1) with
  | .ok (i, _) => .instr i operands.2
  | .error _ => .invalid s.pc op.1 operands.2

/-- `Step()` (40_engine.md R93): fetch, decode, run the handler; an invalid opcode is reported and nothing else happens. -/
def instrStep (s : State) : Host.Outcome State Fault Refusal :=
  match fetchInstr s with
  | .instr i t => exec i t
  | .invalid addr byte t => .next (reportInvalid addr byte t)

/-- What `Step()` charges from a state (40_engine.md R94). -/
def stepCycles (s : State) : Nat :=
  match fetchInstr s with
  | .instr i _ => cycleTotal i
  | .invalid _ _ _ => invalidCycles

/-- The return of an `execute` call: `cycles` is discarded (40_engine.md R86). -/
def endCall (s : State) : State :=
  { s with cycles := none }

/-- One pass of the loop of 40_engine.md R86. With no call running the Processor does nothing (60_exceptions.md R145; log 10).
At an instruction boundary with `cycles > 0` it runs `Step()`, otherwise the call returns. -/
def loopPass (s : State) : Host.Outcome State Fault Refusal :=
  match s.cycles with
  | none => .next s
  | some c => if 0 < c then instrStep s else .next (endCall s)

/-- Bytes stored at consecutive addresses modulo 2^16, as the host places an instruction (30_encoding.md R76). -/
def placeBytes : Word → List Byte → State → State
  | _, [], s => s
  | addr, v :: rest, s => placeBytes (addr + 1) rest { s with mem := s.mem.write addr.toNat v }

/-- A state with budget left, so that the next pass starts an instruction: as it is if there is budget, else as the host's
`execute(1)` makes it (40_engine.md R85; log 11). -/
def withBudget (s : State) : State :=
  match s.cycles with
  | none => { s with cycles := some 1 }
  | some c => if 0 < c then s else { s with cycles := some 1 }

end Sys2Proof.Machine
end

