-- ==== Sys2Proof/Machine/Step.lean ====
section
/-! DEFINITION. One step of the machine, and the state in which a given instruction stands where the next step fetches. -/

namespace Sys2Proof.Machine

/-- One step: one pass of the execute loop (40_engine.md R86). -/
def step (s : State) : Host.Outcome State Fault Refusal := loopPass s

/-- `s` with the instruction of a table word stored at `PC` and budget to start it (log 11). -/
def State.withFetchWord (s : State) (nbits w : Nat) : State :=
  withBudget (placeBytes s.pc (tableBytes nbits w) s)

end Sys2Proof.Machine
end

