-- ==== Sys2Proof/Machine/Execute.lean ====
section
/-! DEFINITION. A whole `execute` call (40_engine.md R85, R86): its admission, its loop and its return; and the run of
instructions without a budget, which says what the loop's budget selects (R97). -/

namespace Sys2Proof.Machine

/-- The start of an `execute` call (40_engine.md R85): refused while a call runs (60_exceptions.md R147) and on a Processor with
a power-up value left in it (70_reset_and_hazards.md R160); else `cycles` is created from the budget. -/
def beginCall (budget : BitVec 32) (s : State) : Host.Outcome State Fault Refusal :=
  if s.cycles.isSome then .refused .hostDuringExecute
  else if s.powerUp ≠ [] then .refused .executeBeforeReset
  else .next { s with cycles := some (budget.toNat : Int) }

/-- The passes of a call until it returns, at most `fuel` of them. -/
def runCall : Nat → State → Host.Outcome State Fault Refusal
  | 0, s => .next s
  | fuel + 1, s =>
    match s.cycles with
    | none => .next s
    | some _ =>
      match step s with
      | .next t => runCall fuel t
      | .fault f => .fault f
      | .refused r => .refused r

/-- `execute(budget)` (40_engine.md R85). Every instruction charges at least 1 cycle, so `budget` passes and the returning one
are enough (R98). -/
def execute (budget : BitVec 32) (s : State) : Host.Outcome State Fault Refusal :=
  match beginCall budget s with
  | .next t => runCall (budget.toNat + 1) t
  | .fault f => .fault f
  | .refused r => .refused r

/-- The first `k` instructions a state runs, one `Step()` after another, with no budget test. -/
def runInstrs : Nat → State → Host.Outcome State Fault Refusal
  | 0, s => .next s
  | k + 1, s =>
    match instrStep s with
    | .next t => runInstrs k t
    | .fault f => .fault f
    | .refused r => .refused r

/-- The cycles the first `k` instructions charge together: `c1 + ... + ck` of 40_engine.md R97. -/
def runCycles : Nat → State → Nat
  | 0, _ => 0
  | k + 1, s =>
    match instrStep s with
    | .next t => stepCycles s + runCycles k t
    | .fault _ => 0
    | .refused _ => 0

end Sys2Proof.Machine
end

