-- ==== Sys2Proof/Machine/HostPort.lean ====
section
/-! DEFINITION. The host interface (60_exceptions.md R146): exactly its operations, each one atomic interaction made while no
`execute` call runs. -/

namespace Sys2Proof.Machine

/-- The operations of 60_exceptions.md R146. -/
inductive PortOp where
  | newMemory
  | newProcessor
  | reset
  | memGet (index : Nat)
  | memSet (index : Nat) (v : Byte)
  | readWord (index : Nat)
  | writeWord (index : Nat) (v : Word)
  | execute (budget : BitVec 32)
  | getReg16 (r : Reg16)
  | setReg16 (r : Reg16) (v : Word)
  | getReg8 (r : Reg8)
  | setReg8 (r : Reg8) (v : Byte)
  | getFlag (f : FlagName)
  | setFlag (f : FlagName) (bit : Bool)
  | reports
  deriving DecidableEq, Repr

/-- What an operation returns to the host. -/
inductive PortValue where
  | unit
  | byte (v : Byte)
  | word (v : Word)
  | bit (v : Bool)
  | reports (rs : List Report)
  deriving DecidableEq, Repr

/-- A 16-bit register read by name. -/
def reg16 (s : State) : Reg16 → Word
  | .pc => s.pc
  | .sp => s.sp

/-- A 16-bit register written by name, with any value of its width (60_exceptions.md R148). -/
def setReg16 (s : State) (r : Reg16) (v : Word) : State :=
  match r with
  | .pc => { s with pc := v }
  | .sp => { s with sp := v }

/-- An 8-bit register read by name. -/
def reg8 (s : State) : Reg8 → Byte
  | .a => s.a
  | .x => s.x
  | .y => s.y

/-- A power-up value overwritten (70_reset_and_hazards.md R160; log 8). -/
def written (item : PowerUpItem) (s : State) : State :=
  { s with powerUp := s.powerUp.filter (fun other => other != item) }

/-- An 8-bit register written by name (60_exceptions.md R148); it holds no power-up value afterwards. -/
def setReg8 (s : State) (r : Reg8) (v : Byte) : State :=
  match r with
  | .a => written (.reg .a) { s with a := v }
  | .x => written (.reg .x) { s with x := v }
  | .y => written (.reg .y) { s with y := v }

/-- A flag written by name (60_exceptions.md R148); it holds no power-up value afterwards. -/
def setFlag (s : State) (f : FlagName) (bit : Bool) : State :=
  written (.flag f) { s with flags := putFlag s.flags f bit }

/-- An operation that returns a byte read from memory, or the memory component's error. -/
def answerWith {α : Type} (value : α → PortValue) (s : State) : Except Fault α → Host.Outcome (PortValue × State) Fault Refusal
  | .ok v => .next (value v, s)
  | .error f => .fault f

/-- An operation that stores the memory the memory component answers, or its error; on an error nothing is stored. -/
def storeMemory (s : State) : Except Fault Memory → Host.Outcome (PortValue × State) Fault Refusal
  | .ok m => .next (.unit, { s with mem := m })
  | .error f => .fault f

/-- A whole `execute` call as an operation: it returns no value (40_engine.md R85). -/
def returned : Host.Outcome State Fault Refusal → Host.Outcome (PortValue × State) Fault Refusal
  | .next t => .next (.unit, t)
  | .fault f => .fault f
  | .refused r => .refused r

/-- One operation of the host (60_exceptions.md R146): the value it returns and the state after it, or its failure. While a
call runs the host has no move (R147). -/
def portDo (op : PortOp) (s : State) : Host.Outcome (PortValue × State) Fault Refusal :=
  if s.cycles.isSome then .refused .hostDuringExecute
  else
    match op with
    | .newMemory => .next (.unit, newMemory s)
    | .newProcessor => .next (.unit, newProcessor s)
    | .reset => .next (.unit, resetProcessor s)
    | .memGet index => answerWith .byte s (s.mem.readByte index)
    | .memSet index v => storeMemory s (s.mem.writeByte index v)
    | .readWord index => answerWith .word s (s.mem.readWord index)
    | .writeWord index v => storeMemory s (s.mem.writeWord index v)
    | .execute budget => returned (execute budget s)
    | .getReg16 r => .next (.word (reg16 s r), s)
    | .setReg16 r v => .next (.unit, setReg16 s r v)
    | .getReg8 r => .next (.byte (reg8 s r), s)
    | .setReg8 r v => .next (.unit, setReg8 s r v)
    | .getFlag f => .next (.bit (getFlag s.flags f), s)
    | .setFlag f bit => .next (.unit, setFlag s f bit)
    | .reports => .next (.reports s.reports, s)

/-- The state after an operation of the host: an operation that fails or is refused changes nothing (60_exceptions.md R131,
R149). -/
def afterPort (op : PortOp) (s : State) : State :=
  match portDo op s with
  | .next r => r.2
  | .fault _ => s
  | .refused _ => s

/-- The machine after `new_memory()` and `new_processor()`, before any reset (10_state.md R38, column "after construction"). -/
def State.constructed : State := newProcessor (newMemory State.reset)

end Sys2Proof.Machine
end

