-- ==== Sys2Proof/Safety.lean ====
section
/-! DEFINITION. The terms in which claims are stated: the invariant of the machine, what an outcome becomes when its next state
is changed, and the states that differ only in what no instruction reads. -/

namespace Sys2Proof.Machine

/-- The bytes that are opcodes (30_encoding.md R77 lists the same seven). -/
def opcodeBytes : List Byte := [0x20, 0x65, 0x69, 0x75, 0xA5, 0xA9, 0xB5]

/-- What holds at reset and construction and is kept by every step and every operation of the host. -/
structure MachineInv (s : State) : Prop where
  /-- Memory is in its canonical form. -/
  mem_wf : s.mem.wf = true
  /-- Only bytes that are no opcode are ever reported (60_exceptions.md R130). -/
  reports_invalid : ∀ r ∈ s.reports, r.byte ∉ opcodeBytes
  /-- A call runs only where no power-up value is left (70_reset_and_hazards.md R160). -/
  call_admitted : s.cycles ≠ none → s.powerUp = []
  /-- The counter starts from a 32-bit budget and an instruction that starts with 1 cycle left charges at most 7
  (40_engine.md R85 to R87, R94). -/
  cycles_bounds : ∀ c, s.cycles = some c → -6 ≤ c ∧ c < 4294967296

/-- The bytes of the longest instruction, read at `PC` and on (30_encoding.md R76). -/
def bytesAtPc (s : State) : List Byte :=
  [s.mem.read s.pc.toNat, s.mem.read (s.pc + 1).toNat, s.mem.read (s.pc + 2).toNat]

/-- An outcome whose next state is changed by `f`; a stop stays as it is. -/
def mapNext (f : State → State) : Host.Outcome State Fault Refusal → Host.Outcome State Fault Refusal
  | .next t => .next (f t)
  | .fault e => .fault e
  | .refused r => .refused r

/-- Two outcomes one after the other. -/
def andThen (o : Host.Outcome State Fault Refusal) (f : State → Host.Outcome State Fault Refusal) :
    Host.Outcome State Fault Refusal :=
  match o with
  | .next t => f t
  | .fault e => .fault e
  | .refused r => .refused r

/-- A state with the flags no instruction touches, and `Y`, replaced (10_state.md R25, R32). -/
def withInert (i d b u : Bool) (y : Byte) (s : State) : State :=
  { s with y := y, flags := { s.flags with i := i, d := d, b := b, u := u } }

/-- A state with the flags that instructions write and none reads replaced (10_state.md R29 to R31). -/
def withResultFlags (z v n : Bool) (s : State) : State :=
  { s with flags := { s.flags with z := z, v := v, n := n } }

/-- A state with earlier report records put before its own (10_state.md R36). -/
def withEarlierReports (rs : List Report) (s : State) : State :=
  { s with reports := rs ++ s.reports }

/-- A state with another memory. -/
def withMemory (m : Memory) (s : State) : State :=
  { s with mem := m }

/-- `sgn(v)`: a byte read as a two's-complement number (42_arithmetic.md R111). -/
def signedValue (v : Byte) : Int := if v.toNat < 0x80 then v.toNat else v.toNat - 256

/-- Whether an instruction is of the LDA family. -/
def isLoad : Instr → Bool
  | .ldaImm _ => true
  | .ldaZp _ => true
  | .ldaZpx _ => true
  | .adcImm _ => false
  | .adcZp _ => false
  | .adcZpx _ => false
  | .jsrAbs _ => false

/-- Whether an instruction is of the ADC family. -/
def isAdd : Instr → Bool
  | .ldaImm _ => false
  | .ldaZp _ => false
  | .ldaZpx _ => false
  | .adcImm _ => true
  | .adcZp _ => true
  | .adcZpx _ => true
  | .jsrAbs _ => false

/-- `A`, `Z` and `N` as LDA leaves them for a loaded value (41_load.md R105), in terms of the value as a number. -/
def loadedState (m : Byte) (s : State) : State :=
  { s with a := m, flags := { s.flags with z := decide (m.toNat = 0), n := decide (128 ≤ m.toNat) } }

/-- `A`, `C`, `Z`, `N` and `V` as ADC leaves them for an operand (42_arithmetic.md R110), in terms of the integer sum. -/
def addedState (m : Byte) (s : State) : State :=
  let sum := s.a.toNat + m.toNat + (if s.flags.c then 1 else 0)
  let result : Byte := BitVec.ofNat 8 (sum % 256)
  { s with
    a := result
    flags :=
      { s.flags with
        c := decide (255 < sum)
        z := decide (sum % 256 = 0)
        n := decide (128 ≤ sum % 256)
        v := decide ((~~~(s.a ^^^ m) &&& (s.a ^^^ result) &&& 0x80) ≠ 0) } }

end Sys2Proof.Machine
end

