-- ==== Sys2Proof/WellFormed.lean ====
section
/-! DEFINITION. Well-formedness. An `Instr` carries operands of the exact widths of the formats, and every operand value is
legal (30_encoding.md R74), so every instruction is well formed; what can be ill formed is a list of BYTES offered as one
encoded instruction. -/

namespace Sys2Proof

/-- Whether an instruction's operands are ones its format admits: all are, since no operand value is reserved
(30_encoding.md R74). -/
def Instr.wellFormed : Instr → Bool
  | .ldaImm _ => true
  | .ldaZp _ => true
  | .ldaZpx _ => true
  | .adcImm _ => true
  | .adcZp _ => true
  | .adcZpx _ => true
  | .jsrAbs _ => true

/-- Whether a list of bytes is exactly one encoded instruction: its first byte is one of the seven opcodes (30_encoding.md
R71), and it holds as many operand bytes as that opcode says, no fewer and no more (R73). -/
def wellFormedBytes : List Byte → Bool
  | [] => false
  | op :: rest =>
    match opcodeOfByte op with
    | some o => rest.length == operandCount o
    | none => false

end Sys2Proof
end

