-- ==== Sys2Proof/Certificates/Slice0/Obligations.lean ====
section
/-! DEFINITION. The statements about the machine, for the provers. A docstring names the rule or section of spec/ a statement
formalises, and the log entry where it rests on a decision of the spec or a choice of the model. -/

open Sys2Proof Sys2Proof.Machine

/-! ## Encoding -/

/-- 30_encoding.md sections 3 and 6: words written out from the opcode map (D1, log 1), and one byte that is no opcode. -/
def Obligations.MapWordsDecode : Prop :=
  decode [0xA9, 0x42] = .ok (.ldaImm 0x42, []) ∧
  decode [0xA5, 0x10] = .ok (.ldaZp 0x10, []) ∧
  decode [0xB5, 0xFF] = .ok (.ldaZpx 0xFF, []) ∧
  decode [0x69, 0x01] = .ok (.adcImm 0x01, []) ∧
  decode [0x65, 0x20] = .ok (.adcZp 0x20, []) ∧
  decode [0x75, 0xFF] = .ok (.adcZpx 0xFF, []) ∧
  decode [0x20, 0x34, 0x12] = .ok (.jsrAbs 0x1234, []) ∧
  decode [0xEA, 0x00, 0x00] = .error (.invalidOpcode 0xEA)

/-- 30_encoding.md sections 1 to 3: decoding what the encoder writes gives the instruction back, at every operand value, and
leaves the bytes after it. -/
def Obligations.DecodeOfEncode : Prop :=
  ∀ (i : Instr) (rest : List Byte), decode (encode i ++ rest) = .ok (i, rest)

/-- 30_encoding.md sections 1 to 3: bytes that decode are the encoding of what they decode to, so each encoded instruction has
one meaning and no bit of it is dropped. -/
def Obligations.EncodeOfDecode : Prop :=
  ∀ (bs rest : List Byte) (i : Instr), decode bs = .ok (i, rest) → bs = encode i ++ rest

/-- 30_encoding.md sections 1 to 5: the bytes that decode as exactly one instruction are those that begin with one of the seven
opcodes and are as long as that opcode says. -/
def Obligations.WholeInstructionBytesDecode : Prop :=
  ∀ bs : List Byte, wellFormedBytes bs = true ↔ ∃ i, decode bs = .ok (i, [])

/-- 30_encoding.md sections 1 to 3 (the wrap past 0xFFFF is D2, log 2): an encoded instruction stored anywhere, across the top of
memory too, is the instruction fetched there, with `PC` past its bytes and one cycle charged for each of them. -/
def Obligations.PlacedInstructionIsFetched : Prop :=
  ∀ (i : Instr) (s : State), s.mem.wf = true →
    fetchInstr (placeBytes s.pc (encode i) s) =
      .instr i { placeBytes s.pc (encode i) s with
        pc := s.pc + BitVec.ofNat 16 (instrLength i)
        cycles := s.cycles.map (fun c => c - (instrLength i : Int)) }

/-- 30_encoding.md R70: a JSR's target is its two operand bytes in memory, the first the low byte and the second the high. -/
def Obligations.AbsoluteOperandLowByteFirst : Prop :=
  (∀ s : State, opcodeOfByte (s.mem.read s.pc.toNat) = some .jsrAbs →
    ∃ target u, fetchInstr s = .instr (.jsrAbs target) u ∧
      target = hiLo (s.mem.read (s.pc + 2).toNat) (s.mem.read (s.pc + 1).toNat) ∧
      target.toNat = (s.mem.read (s.pc + 1).toNat).toNat + 256 * (s.mem.read (s.pc + 2).toNat).toNat) ∧
  hiLo 0x20 0x00 = 0x2000

/-! ## The step and the loop -/

/-- 40_engine.md section 3: with budget left, a step fetches one opcode byte at `PC`, decodes it and runs the handler; an invalid
opcode is reported with its address and nothing else happens. That the handler runs on a state with all of the instruction's
bytes already fetched, one cycle charged for each, is the model's reading: the spec's handlers fetch their own operand bytes
(DEDUCED, log 16). -/
def Obligations.StepRunsDecodedInstruction : Prop :=
  ∀ (s : State) (c : Int), s.cycles = some c → 0 < c →
    (∀ i rest, decode (bytesAtPc s) = .ok (i, rest) →
      step s = exec i { s with
        pc := s.pc + BitVec.ofNat 16 (instrLength i), cycles := some (c - (instrLength i : Int)) }) ∧
    (∀ e, decode (bytesAtPc s) = .error e →
      step s = .next { s with
        pc := s.pc + 1
        cycles := some (c - 1)
        reports := s.reports ++ [{ addr := s.pc, byte := s.mem.read s.pc.toNat }] })

/-- 40_engine.md section 1: the budget is tested at the instruction boundary and nowhere else, and without budget the call
returns and `cycles` is discarded. That a step with no call running changes nothing is the model's choice (log 10). -/
def Obligations.BudgetTestedAtBoundary : Prop :=
  ∀ (s : State) (budget : BitVec 32),
    (∀ c, s.cycles = some c → 0 < c → step s = instrStep s) ∧
    (∀ c, s.cycles = some c → c ≤ 0 → step s = .next { s with cycles := none }) ∧
    (s.cycles = none → step s = .next s) ∧
    (s.cycles = none → s.powerUp = [] → beginCall budget s = .next { s with cycles := some (budget.toNat : Int) })

/-- 60_exceptions.md section 3: every step from every state has a next state; no instruction and no invalid opcode stops the
machine. -/
def Obligations.StepAlwaysAnswers : Prop :=
  ∀ s : State, (∃ t, step s = .next t) ∧ ∀ i, ∃ t, exec i s = .next t

/-- 40_engine.md section 4 (R94's table; JSR's 7 is D4, log 4): a started instruction charges its whole total, also when that
takes `cycles` below zero. -/
def Obligations.StepChargesTotal : Prop :=
  ∀ (s : State) (c : Int), s.cycles = some c → 0 < c →
    ∃ t, step s = .next t ∧
      (∀ i rest, decode (bytesAtPc s) = .ok (i, rest) → t.cycles = some (c - (cycleTotal i : Int))) ∧
      (∀ e, decode (bytesAtPc s) = .error e → t.cycles = some (c - 1))

/-- 40_engine.md section 5: after an instruction `PC` is past its last byte, modulo 2^16, or at JSR's target; an invalid opcode
advances `PC` by 1 (the wrap is D2, log 2). -/
def Obligations.PcAfterStep : Prop :=
  ∀ (s : State) (c : Int), s.cycles = some c → 0 < c →
    ∃ t, step s = .next t ∧
      (∀ target rest, decode (bytesAtPc s) = .ok (.jsrAbs target, rest) → t.pc = target) ∧
      (∀ i rest, decode (bytesAtPc s) = .ok (i, rest) → opcodeOf i ≠ .jsrAbs →
        t.pc.toNat = (s.pc.toNat + 2) % 65536) ∧
      (∀ e, decode (bytesAtPc s) = .error e → t.pc.toNat = (s.pc.toNat + 1) % 65536)

/-- 40_engine.md section 5: no step writes `Y`, `X`, `I`, `D`, `B` or `U`, the report stream only grows, and memory changes at
most at the two addresses JSR pushes to. -/
def Obligations.StepWritesOnlyItsOwn : Prop :=
  ∀ s t : State, step s = .next t →
    t.x = s.x ∧ t.y = s.y ∧
    t.flags.i = s.flags.i ∧ t.flags.d = s.flags.d ∧ t.flags.b = s.flags.b ∧ t.flags.u = s.flags.u ∧
    t.powerUp = s.powerUp ∧ (∃ more, t.reports = s.reports ++ more) ∧
    (∀ addr, addr ≠ s.sp.toNat → addr ≠ (s.sp - 1).toNat → t.mem.read addr = s.mem.read addr) ∧
    (opcodeOfByte (s.mem.read s.pc.toNat) ≠ some .jsrAbs → t.sp = s.sp ∧ t.mem = s.mem) ∧
    (opcodeOfByte (s.mem.read s.pc.toNat) = some .jsrAbs → t.a = s.a ∧ t.flags = s.flags) ∧
    (opcodeOfByte (s.mem.read s.pc.toNat) = none → t.a = s.a ∧ t.flags = s.flags)

/-- 60_exceptions.md section 1 and 30_encoding.md section 4 (D1, D2, D6; log 1, 2, 6): each of the other 249 bytes is a 1-byte,
1-cycle invalid opcode: reported, `PC` one on, nothing else changed. -/
def Obligations.InvalidOpcodeIsReportedAndSkipped : Prop :=
  ∀ (s : State) (c : Int), s.cycles = some c → 0 < c → s.mem.read s.pc.toNat ∉ opcodeBytes →
    step s = .next { s with
      pc := s.pc + 1
      cycles := some (c - 1)
      reports := s.reports ++ [{ addr := s.pc, byte := s.mem.read s.pc.toNat }] }

/-! ## LDA -/

/-- 41_load.md R105: every form of LDA completes, writes `A` and sets `Z` and `N` from it; `C`, `V`, `I`, `D`, `B`, `U` and
everything else are unchanged, but for the cycles the operand form charges. -/
def Obligations.LoadResults : Prop :=
  ∀ s : State,
    (∀ imm, exec (.ldaImm imm) s = .next (loadedState imm s)) ∧
    (∀ zp, exec (.ldaZp zp) s =
      .next (loadedState (s.mem.read zp.toNat) { s with cycles := s.cycles.map (fun c => c - 1) })) ∧
    (∀ base, exec (.ldaZpx base) s =
      .next (loadedState (s.mem.read ((base.toNat + s.x.toNat) % 256))
        { s with cycles := s.cycles.map (fun c => c - 2) }))

/-- 30_encoding.md R67, R68, R69: the immediate operand is the byte itself; the zero-page operand is the byte at the byte taken
as an address in 0x0000 to 0x00FF; the zero-page,X operand is the byte at `base + X` modulo 256, so base 0xFF with `X` 0x01 is
address 0x0000. The ADC forms take their operands as the LDA forms do. -/
def Obligations.OperandForms : Prop :=
  ∀ s : State,
    (∀ imm, ∃ t, exec (.ldaImm imm) s = .next t ∧ t.a = imm) ∧
    (∀ zp, zpAddress zp = zext16 zp ∧ (zpAddress zp).toNat = zp.toNat ∧ (zpAddress zp).toNat ≤ 0xFF) ∧
    (∀ base, zpxAddress base s.x = zext16 (base + s.x) ∧
      (zpxAddress base s.x).toNat = (base.toNat + s.x.toNat) % 256 ∧ (zpxAddress base s.x).toNat ≤ 0xFF) ∧
    zpxAddress 0xFF 0x01 = 0x0000 ∧
    (∀ zp, exec (.ldaZp zp) s = exec (.ldaImm (s.mem.read (zpAddress zp).toNat)) (charge 1 s)) ∧
    (∀ base, exec (.ldaZpx base) s = exec (.ldaImm (s.mem.read (zpxAddress base s.x).toNat)) (charge 2 s)) ∧
    (∀ zp, exec (.adcZp zp) s = exec (.adcImm (s.mem.read (zpAddress zp).toNat)) (charge 1 s)) ∧
    (∀ base, exec (.adcZpx base) s = exec (.adcImm (s.mem.read (zpxAddress base s.x).toNat)) (charge 2 s))

/-- 41_load.md section for LDA, with the bytes of the opcode map (D1, D2; log 1, 2): what a step does where the bytes of an LDA
stand at `PC`. -/
def Obligations.LoadStepFromBytes : Prop :=
  ∀ (s : State) (c : Int), s.cycles = some c → 0 < c →
    (s.mem.read s.pc.toNat = 0xA9 →
      step s = .next (loadedState (s.mem.read (s.pc + 1).toNat)
        { s with pc := s.pc + 2, cycles := some (c - 2) })) ∧
    (s.mem.read s.pc.toNat = 0xA5 →
      step s = .next (loadedState (s.mem.read (s.mem.read (s.pc + 1).toNat).toNat)
        { s with pc := s.pc + 2, cycles := some (c - 3) })) ∧
    (s.mem.read s.pc.toNat = 0xB5 →
      step s = .next (loadedState (s.mem.read (((s.mem.read (s.pc + 1).toNat).toNat + s.x.toNat) % 256))
        { s with pc := s.pc + 2, cycles := some (c - 4) }))

/-! ## ADC -/

/-- 42_arithmetic.md R110: every form of ADC completes; `C`, `Z`, `N` and `V` come from the integer sum of the old `A`, the
operand and the carry-in, and `A` takes its low 8 bits; `I`, `D`, `B`, `U` and everything else are unchanged, but for the cycles
the operand form charges. -/
def Obligations.AddResults : Prop :=
  ∀ s : State,
    (∀ imm, exec (.adcImm imm) s = .next (addedState imm s)) ∧
    (∀ zp, exec (.adcZp zp) s =
      .next (addedState (s.mem.read zp.toNat) { s with cycles := s.cycles.map (fun c => c - 1) })) ∧
    (∀ base, exec (.adcZpx base) s =
      .next (addedState (s.mem.read ((base.toNat + s.x.toNat) % 256))
        { s with cycles := s.cycles.map (fun c => c - 2) }))

/-- 42_arithmetic.md sections 1 and 3 (an inference the spec marks as its own): `V` says exactly that the signed sum of the
operands and the carry-in falls outside -128 to 127, and `C` exactly that the unsigned sum reaches 256. -/
def Obligations.OverflowIsSignedRange : Prop :=
  ∀ (s : State) (imm : Byte), ∃ t, exec (.adcImm imm) s = .next t ∧
    (t.flags.v = true ↔
      ¬(-128 ≤ signedValue s.a + signedValue imm + (if s.flags.c then 1 else 0) ∧
        signedValue s.a + signedValue imm + (if s.flags.c then 1 else 0) ≤ 127)) ∧
    (t.flags.c = true ↔ 256 ≤ s.a.toNat + imm.toNat + (if s.flags.c then 1 else 0)) ∧
    (t.flags.v = false → signedValue t.a = signedValue s.a + signedValue imm + (if s.flags.c then 1 else 0))

/-- 42_arithmetic.md section 2, with the bytes of the opcode map (D1, D2; log 1, 2): what a step does where the bytes of an ADC
stand at `PC`. -/
def Obligations.AddStepFromBytes : Prop :=
  ∀ (s : State) (c : Int), s.cycles = some c → 0 < c →
    (s.mem.read s.pc.toNat = 0x69 →
      step s = .next (addedState (s.mem.read (s.pc + 1).toNat)
        { s with pc := s.pc + 2, cycles := some (c - 2) })) ∧
    (s.mem.read s.pc.toNat = 0x65 →
      step s = .next (addedState (s.mem.read (s.mem.read (s.pc + 1).toNat).toNat)
        { s with pc := s.pc + 2, cycles := some (c - 3) })) ∧
    (s.mem.read s.pc.toNat = 0x75 →
      step s = .next (addedState (s.mem.read (((s.mem.read (s.pc + 1).toNat).toNat + s.x.toNat) % 256))
        { s with pc := s.pc + 2, cycles := some (c - 4) }))

/-- 41_load.md and 42_arithmetic.md: the frame of LDA and ADC. `A` is the only register written; LDA writes `Z` and `N` of the
flags, ADC `C`, `Z`, `N` and `V`; every byte of memory reads as before. -/
def Obligations.LoadAndAddFrame : Prop :=
  ∀ (i : Instr) (s t : State), isLoad i = true ∨ isAdd i = true → exec i s = .next t →
    t.pc = s.pc ∧ t.sp = s.sp ∧ t.x = s.x ∧ t.y = s.y ∧ t.reports = s.reports ∧ t.powerUp = s.powerUp ∧
    t.flags.i = s.flags.i ∧ t.flags.d = s.flags.d ∧ t.flags.b = s.flags.b ∧ t.flags.u = s.flags.u ∧
    (isLoad i = true → t.flags.c = s.flags.c ∧ t.flags.v = s.flags.v) ∧
    (∀ addr, t.mem.read addr = s.mem.read addr)

/-- 20_memory.md section 4: the data an LDA or ADC works on comes from the zero page only. In two states that agree there and in
all but memory it answers the same, but for memory, which it leaves as it found it. -/
def Obligations.DataReadsStayInZeroPage : Prop :=
  ∀ (i : Instr) (s : State) (m : Memory), isLoad i = true ∨ isAdd i = true →
    (∀ addr, addr < 256 → m.read addr = s.mem.read addr) →
    exec i (withMemory m s) = mapNext (withMemory m) (exec i s)

/-! ## JSR -/

/-- 43_control.md section 2 (D3, D4; log 3, 4): JSR completes in every state. The return address goes to the stack, its high
byte at `SP` and its low byte at `SP` - 1, `SP` goes down by 2, `PC` takes the target, and 4 cycles are charged. -/
def Obligations.JsrResult : Prop :=
  ∀ (s : State) (target : Word), s.mem.wf = true →
    ∃ t, exec (.jsrAbs target) s = .next t ∧
      t.pc = target ∧ t.sp = s.sp - 2 ∧
      t.mem.read s.sp.toNat = hiByte (s.pc - 1) ∧
      t.mem.read (s.sp - 1).toNat = loByte (s.pc - 1) ∧
      t.cycles = s.cycles.map (fun c => c - 4)

/-- 43_control.md section 2: the frame of JSR. No register but `PC` and `SP`, no flag, and no byte of memory but the two at `SP`
and `SP` - 1 changes. -/
def Obligations.JsrFrame : Prop :=
  ∀ (s t : State) (target : Word), exec (.jsrAbs target) s = .next t →
    t.a = s.a ∧ t.x = s.x ∧ t.y = s.y ∧ t.flags = s.flags ∧ t.reports = s.reports ∧ t.powerUp = s.powerUp ∧
    (∀ addr, addr ≠ s.sp.toNat → addr ≠ (s.sp - 1).toNat → t.mem.read addr = s.mem.read addr)

/-- 43_control.md R120: for a JSR whose opcode is at `p`, the address pushed is the address after the operand minus 1, which is
`p + 2` modulo 2^16, the address of its last byte. -/
def Obligations.JsrPushesAddressOfItsLastByte : Prop :=
  ∀ (s u : State) (target : Word), s.mem.wf = true → fetchInstr s = .instr (.jsrAbs target) u →
    u.pc - 1 = s.pc + 2 ∧
    ∃ t, instrStep s = .next t ∧
      hiLo (t.mem.read (t.sp + 2).toNat) (t.mem.read (t.sp + 1).toNat) = s.pc + 2

/-- 43_control.md R124: `SP` goes down modulo 2^16 from every value, and nothing checks it: from 0x0000 the push goes on at
0xFFFF, and further down it writes over the reset entry point 0xFFFC. -/
def Obligations.StackPointerWraps : Prop :=
  ∀ (s : State) (target : Word), s.mem.wf = true →
    ∃ t, exec (.jsrAbs target) s = .next t ∧
      t.sp.toNat = (s.sp.toNat + 65534) % 65536 ∧
      (s.sp = 0x0000 → t.sp = 0xFFFE ∧ t.mem.read 0x0000 = hiByte (s.pc - 1) ∧ t.mem.read 0xFFFF = loByte (s.pc - 1)) ∧
      (s.sp = 0xFFFC → t.sp = 0xFFFA ∧ t.mem.read 0xFFFC = hiByte (s.pc - 1)) ∧
      (s.sp = 0xFFFD → t.sp = 0xFFFB ∧ t.mem.read 0xFFFC = loByte (s.pc - 1))

/-- 43_control.md section 2, with the opcode byte of the map (D1 to D4; log 1 to 4): what a step does where the bytes of a JSR
stand at `PC`. -/
def Obligations.JsrStepFromBytes : Prop :=
  ∀ (s : State) (c : Int), s.mem.wf = true → s.cycles = some c → 0 < c → s.mem.read s.pc.toNat = 0x20 →
    ∃ t, step s = .next t ∧
      t.pc = hiLo (s.mem.read (s.pc + 2).toNat) (s.mem.read (s.pc + 1).toNat) ∧
      t.sp = s.sp - 2 ∧
      t.mem.read s.sp.toNat = hiByte (s.pc + 2) ∧
      t.mem.read (s.sp - 1).toNat = loByte (s.pc + 2) ∧
      (∀ addr, addr ≠ s.sp.toNat → addr ≠ (s.sp - 1).toNat → t.mem.read addr = s.mem.read addr) ∧
      t.cycles = some (c - 7) ∧
      t.a = s.a ∧ t.x = s.x ∧ t.y = s.y ∧ t.flags = s.flags ∧ t.reports = s.reports ∧ t.powerUp = s.powerUp

/-- 43_control.md section 3 and 20_memory.md section 5: a byte a JSR pushes onto its own target is the byte fetched there next. -/
def Obligations.PushIsSeenByNextFetch : Prop :=
  ∀ s : State, s.mem.wf = true →
    ∃ t, exec (.jsrAbs s.sp) s = .next t ∧ (fetchByte t).1 = hiByte (s.pc - 1) ∧
      (fetchByte { t with pc := s.sp - 1 }).1 = loByte (s.pc - 1)

/-! ## What no instruction reads -/

/-- 10_state.md R25, R32: `I`, `D`, `B`, `U` and `Y` are neither read nor written by any instruction (so `I` masks nothing and
`D` selects nothing): a step does the same whatever they hold, and leaves them. Reset clears them and the host writes them. -/
def Obligations.InertFlagsAndYDoNothing : Prop :=
  (∀ (s : State) (i d b u : Bool) (y : Byte),
    step (withInert i d b u y s) = mapNext (withInert i d b u y) (step s)) ∧
  (∀ s : State, resetProcessor (withInert true true true true 0xFF s) = resetProcessor s ∧
    (resetProcessor s).y = 0x00 ∧ withInert false false false false 0x00 (resetProcessor s) = resetProcessor s) ∧
  (∀ (s : State) (bit : Bool) (v : Byte), s.cycles = none →
    (afterPort (.setFlag .i bit) s).flags.i = bit ∧ (afterPort (.setFlag .d bit) s).flags.d = bit ∧
    (afterPort (.setFlag .b bit) s).flags.b = bit ∧ (afterPort (.setFlag .u bit) s).flags.u = bit ∧
    (afterPort (.setReg8 .y v) s).y = v)

/-- 10_state.md section 2: no instruction reads `Z`, `V` or `N`. Whatever they hold, a step answers the same up to these three
flags, and an ADC the same in these three too. -/
def Obligations.ResultFlagsAreNotRead : Prop :=
  ∀ (s : State) (z v n : Bool),
    mapNext (withResultFlags false false false) (step (withResultFlags z v n s)) =
      mapNext (withResultFlags false false false) (step s) ∧
    (∀ i, isAdd i = true → exec i (withResultFlags z v n s) = exec i s)

/-- 10_state.md section 4 and 60_exceptions.md section 7: the report stream is output. Records already in it change nothing a
step does, and stay. -/
def Obligations.ReportsAreOutputOnly : Prop :=
  ∀ (s : State) (rs : List Report),
    step (withEarlierReports rs s) = mapNext (withEarlierReports rs) (step s)

/-! ## The invariant -/

/-- The model's invariant (canonical memory, 20_memory.md and 70_reset_and_hazards.md section 1; reports of invalid bytes only;
calls only without power-up values, log 8; bounds of the counter, 40_engine.md sections 1 and 4) is kept by every step. -/
def Obligations.StepKeepsInv : Prop :=
  ∀ s t : State, MachineInv s → step s = .next t → MachineInv t

/-- The invariant holds right after reset, and after construction whatever the power-up values are (log 7). -/
def Obligations.ResetAndConstructionMeetInv : Prop :=
  MachineInv State.reset ∧ MachineInv State.constructed

/-- 60_exceptions.md section 7: every operation of the host, whole `execute` calls included, keeps the invariant. -/
def Obligations.HostOperationsKeepInv : Prop :=
  ∀ (op : PortOp) (s t : State) (value : PortValue), MachineInv s → portDo op s = .next (value, t) → MachineInv t

/-! ## Whole execute calls -/

/-- 40_engine.md section 5: an `execute` call with a budget of at least 1 runs exactly the first `k` instructions, where `k` is
the least number whose totals reach the budget; the overrun is discarded. -/
def Obligations.ExecuteRunsLeastSufficientCount : Prop :=
  ∀ (s : State) (budget : BitVec 32), s.cycles = none → s.powerUp = [] → 1 ≤ budget.toNat →
    ∃ k t, runInstrs k s = .next t ∧ execute budget s = .next t ∧
      budget.toNat ≤ runCycles k s ∧ ∀ j, j < k → runCycles j s < budget.toNat

/-- 40_engine.md section 5: every admitted `execute` call returns, with no counter left, having run at most as many
instructions as its budget; `execute(0)` changes nothing. -/
def Obligations.ExecuteReturns : Prop :=
  ∀ (s : State) (budget : BitVec 32), s.cycles = none → s.powerUp = [] →
    (∃ t k, execute budget s = .next t ∧ t.cycles = none ∧ k ≤ budget.toNat ∧ runInstrs k s = .next t) ∧
    execute 0 s = .next s

/-- 40_engine.md section 1: a call is nothing but its steps. Running the machine behind the host's interface from the start of
the call, for any number of steps that is enough, gives what `execute` gives. It rests on the call's return and the idle Processor
being steps of their own (DESIGN CHOICE, log 10). -/
def Obligations.ExecuteIsTheMachineRun : Prop :=
  ∀ (s u : State) (budget : BitVec 32) (k : Nat), beginCall budget s = .next u → budget.toNat + 1 ≤ k →
    Host.Core.run Sys2Proof.core k u = execute budget s

/-- 40_engine.md section 5 and 60_exceptions.md section 6: `execute(1)` runs exactly one instruction, whatever it costs; a second
one resumes where the first stopped, and no overrun is carried over, while `execute(2)` stops after one instruction that costs 2
or more. -/
def Obligations.SingleStepping : Prop :=
  ∀ s : State, s.cycles = none → s.powerUp = [] →
    execute 1 s = runInstrs 1 s ∧
    andThen (execute 1 s) (execute 1) = runInstrs 2 s ∧
    (2 ≤ stepCycles s → execute 2 s = runInstrs 1 s)

/-! ## Memory and the host's port -/

/-- 20_memory.md R46: a byte stored at any address, 0xFFFC to 0xFFFF and the zero page included, is returned by a later read
there, and no other byte changes. -/
def Obligations.EveryCellIsPlainStorage : Prop :=
  ∀ (s : State) (index other : Nat) (v : Byte), s.cycles = none → s.mem.wf = true → index < 65536 → other < 65536 →
    portDo (.memGet other) (afterPort (.memSet index v) s) =
      .next (.byte (if other = index then v else s.mem.read other), afterPort (.memSet index v) s)

/-- 20_memory.md R47, R48 and 60_exceptions.md R149: a host access with an index of 65536 or more fails with AddressOutOfRange
and changes nothing, one below reads or stores the byte, and only these accesses can fail: no other operation, and no step. -/
def Obligations.OnlyHostIndicesFail : Prop :=
  (∀ (s : State) (index : Nat) (v : Byte) (w : Word), s.cycles = none → 65536 ≤ index →
    portDo (.memGet index) s = .fault (.addressOutOfRange index) ∧
    portDo (.memSet index v) s = .fault (.addressOutOfRange index) ∧ afterPort (.memSet index v) s = s ∧
    portDo (.readWord index) s = .fault (.addressOutOfRange index) ∧
    portDo (.writeWord index w) s = .fault (.addressOutOfRange index) ∧ afterPort (.writeWord index w) s = s) ∧
  (∀ (s : State) (index : Nat) (v : Byte), s.cycles = none → index < 65536 →
    portDo (.memGet index) s = .next (.byte (s.mem.read index), s) ∧
    portDo (.memSet index v) s = .next (.unit, { s with mem := s.mem.write index v })) ∧
  (∀ (op : PortOp) (s : State) (f : Fault), portDo op s = .fault f →
    ∃ index, 65536 ≤ index ∧ f = .addressOutOfRange index ∧
      (op = .memGet index ∨ (∃ v, op = .memSet index v) ∨ op = .readWord index ∨ (∃ w, op = .writeWord index w))) ∧
  (∀ (s : State) (f : Fault), step s ≠ .fault f)

/-- 20_memory.md sections 2, 3 and 5 (the wrap at 0xFFFF is D14, log 12): a word written at any address is read back, its low
byte lies at the address and its high byte at the next one, 0x0000 after 0xFFFF, and no other byte changes. -/
def Obligations.WordRoundTrip : Prop :=
  ∀ (m : Memory) (index : Nat) (v : Word), m.wf = true → index < 65536 →
    ∃ m', m.writeWord index v = .ok m' ∧ m'.readWord index = .ok v ∧
      m'.read index = loByte v ∧ m'.read ((index + 1) % 65536) = hiByte v ∧
      (∀ other, other ≠ index → other ≠ (index + 1) % 65536 → m'.read other = m.read other) ∧
      m.readWord index = .ok (hiLo (m.read ((index + 1) % 65536)) (m.read index))

/-- 70_reset_and_hazards.md section 2 (that reset touches no memory is D19, log 14): reset gives the same registers and flags
from every state, leaves memory and the report stream, and is idempotent; after construction it gives the model's reset state. -/
def Obligations.ResetFromAnyState : Prop :=
  (∀ s : State, s.cycles = none → ∃ t, portDo .reset s = .next (.unit, t) ∧
    t.pc = 0xFFFC ∧ t.sp = 0x00FF ∧ t.a = 0x00 ∧ t.x = 0x00 ∧ t.y = 0x00 ∧ packedFlags t.flags = 0x00 ∧
    t.mem = s.mem ∧ t.reports = s.reports ∧ t.cycles = none ∧ portDo .reset t = .next (.unit, t)) ∧
  afterPort .reset State.constructed = State.reset

/-- 70_reset_and_hazards.md section 1: a newly constructed memory reads 0x00 at every address, and a newly constructed Processor
has `PC` 0xFFFC, `SP` 0x0100, the OPEN power-up values in the rest (log 7) and an empty report stream. -/
def Obligations.Construction : Prop :=
  ∀ s : State, s.cycles = none →
    (∀ index, (afterPort .newMemory s).mem.read index = 0x00) ∧
    (afterPort .newProcessor s).pc = 0xFFFC ∧ (afterPort .newProcessor s).sp = 0x0100 ∧
    (afterPort .newProcessor s).a = Config.powerUpRegs.a ∧ (afterPort .newProcessor s).x = Config.powerUpRegs.x ∧
    (afterPort .newProcessor s).y = Config.powerUpRegs.y ∧
    (afterPort .newProcessor s).flags =
      { c := Config.powerUpRegs.c, z := Config.powerUpRegs.z, i := Config.powerUpRegs.i, d := Config.powerUpRegs.d,
        b := Config.powerUpRegs.b, u := Config.powerUpRegs.u, v := Config.powerUpRegs.v, n := Config.powerUpRegs.n } ∧
    (afterPort .newProcessor s).reports = [] ∧
    (afterPort .newProcessor s).mem = s.mem ∧
    (∀ budget, execute budget (afterPort .newProcessor s) = .refused .executeBeforeReset)

/-- 70_reset_and_hazards.md section 3 (D7; log 8): `execute` is refused exactly while a power-up value is left, and none is left
after a reset, nor once the host has written `A`, `X`, `Y` and all eight flags, in any order and with any operations between but
a new construction. -/
def Obligations.ExecuteAdmission : Prop :=
  (∀ (s : State) (budget : BitVec 32), s.cycles = none →
    (s.powerUp ≠ [] → execute budget s = .refused .executeBeforeReset) ∧
    (s.powerUp = [] → ∃ t, execute budget s = .next t) ∧
    (afterPort .reset s).powerUp = []) ∧
  (∀ (ops : List PortOp) (s : State), s.cycles = none → PortOp.newProcessor ∉ ops →
    (∀ r, ∃ v, PortOp.setReg8 r v ∈ ops) → (∀ f, ∃ bit, PortOp.setFlag f bit ∈ ops) →
    (ops.foldl (fun t op => afterPort op t) s).powerUp = [])

/-- 60_exceptions.md section 7: while a call runs the host has no move; every operation is refused and nothing changes. -/
def Obligations.NoHostMoveDuringCall : Prop :=
  ∀ (op : PortOp) (s : State) (c : Int), s.cycles = some c →
    portDo op s = .refused .hostDuringExecute ∧ afterPort op s = s

/-- 60_exceptions.md section 7 (D18; log 15): a register or flag the host writes holds the value written, whatever it is, and the
other registers and flags, and memory, are unchanged. -/
def Obligations.HostWritesAreReadBack : Prop :=
  ∀ s : State, s.cycles = none →
    (∀ r r' v, portDo (.getReg16 r') (afterPort (.setReg16 r v) s) =
      .next (.word (if r' = r then v else reg16 s r'), afterPort (.setReg16 r v) s)) ∧
    (∀ r r' v, portDo (.getReg8 r') (afterPort (.setReg8 r v) s) =
      .next (.byte (if r' = r then v else reg8 s r'), afterPort (.setReg8 r v) s)) ∧
    (∀ f f' bit, portDo (.getFlag f') (afterPort (.setFlag f bit) s) =
      .next (.bit (if f' = f then bit else getFlag s.flags f'), afterPort (.setFlag f bit) s)) ∧
    (∀ r v, (afterPort (.setReg16 r v) s).mem = s.mem ∧ (afterPort (.setReg16 r v) s).flags = s.flags ∧
      ∀ r', reg8 (afterPort (.setReg16 r v) s) r' = reg8 s r') ∧
    (∀ r v, (afterPort (.setReg8 r v) s).mem = s.mem ∧ (afterPort (.setReg8 r v) s).flags = s.flags ∧
      ∀ r', reg16 (afterPort (.setReg8 r v) s) r' = reg16 s r') ∧
    (∀ f bit, (afterPort (.setFlag f bit) s).mem = s.mem ∧
      (∀ r', reg8 (afterPort (.setFlag f bit) s) r' = reg8 s r') ∧
      ∀ r', reg16 (afterPort (.setFlag f bit) s) r' = reg16 s r')

/-- 10_state.md section 2 (D15; log 13): the flags and the byte `P` stand for each other, bit by bit: C 0, Z 1, I 2, D 3, B 4,
U 5, V 6, N 7. -/
def Obligations.PackedFlagsRoundTrip : Prop :=
  (∀ f : Flags, unpackedFlags (packedFlags f) = f ∧
    (packedFlags f).toNat = f.n.toNat * 128 + f.v.toNat * 64 + f.u.toNat * 32 + f.b.toNat * 16 + f.d.toNat * 8 +
      f.i.toNat * 4 + f.z.toNat * 2 + f.c.toNat) ∧
  (∀ p : Byte, packedFlags (unpackedFlags p) = p)
end

