-- ==== Sys2Proof/Laws/Decode.lean ====
section
/-! SUPPORT. What the helpers of decoding do: the two bytes of a word and back, and the opcode table read both ways. -/

namespace Sys2Proof

open Sys2Proof.Machine

theorem toNat_zext16 (v : Byte) : (zext16 v).toNat = v.toNat := by
  simp [zext16]; omega

theorem toNat_loByte (w : Word) : (loByte w).toNat = w.toNat % 256 := by
  simp [loByte]

theorem toNat_hiByte (w : Word) : (hiByte w).toNat = w.toNat / 256 := by
  simp [hiByte, Nat.shiftRight_eq_div_pow]; omega

theorem toNat_hiLo (hi lo : Byte) : (hiLo hi lo).toNat = hi.toNat * 256 + lo.toNat := by
  have hadd : (zext16 hi <<< 8) ||| zext16 lo = (zext16 hi <<< 8) + zext16 lo := by
    apply (BitVec.add_eq_or_of_and_eq_zero _ _ _).symm
    ext i hi'
    simp only [zext16, BitVec.getElem_and, BitVec.getElem_shiftLeft, BitVec.getElem_setWidth, BitVec.getElem_zero]
    by_cases h : i < 8
    · simp [h]
    · simp [BitVec.getLsbD_of_ge lo i (by omega)]
  rw [hiLo, hadd, BitVec.toNat_add, BitVec.toNat_shiftLeft, toNat_zext16, toNat_zext16, Nat.shiftLeft_eq]
  omega

@[simp] theorem hiLo_hiByte_loByte (w : Word) : hiLo (hiByte w) (loByte w) = w := by
  apply BitVec.eq_of_toNat_eq
  rw [toNat_hiLo, toNat_hiByte, toNat_loByte]
  omega

@[simp] theorem loByte_hiLo (hi lo : Byte) : loByte (hiLo hi lo) = lo := by
  apply BitVec.eq_of_toNat_eq
  rw [toNat_loByte, toNat_hiLo]
  omega

@[simp] theorem hiByte_hiLo (hi lo : Byte) : hiByte (hiLo hi lo) = hi := by
  apply BitVec.eq_of_toNat_eq
  rw [toNat_hiByte, toNat_hiLo]
  omega

/-- The opcode table read backwards gives what it was read forwards from. -/
@[simp] theorem opcodeOfByte_opcodeValue (o : Opcode) : opcodeOfByte (opcodeValue o) = some o := by
  cases o <;> rfl

/-- A byte that is recognised is the opcode's own byte. -/
theorem opcodeValue_of_opcodeOfByte {op : Byte} {o : Opcode} (h : opcodeOfByte op = some o) : opcodeValue o = op := by
  unfold opcodeOfByte at h
  split_ifs at h <;> cases h <;> exact Eq.symm ‹_›

end Sys2Proof
end

