-- ==== Sys2Proof/Laws/State.lean ====
section
/-! SUPPORT. One lemma per field per update of the state, each true by rfl: no proof need unfold a record update. -/

namespace Sys2Proof.Machine

@[simp] theorem charge_pc (n : Nat) (s : State) : (charge n s).pc = s.pc := rfl
@[simp] theorem charge_sp (n : Nat) (s : State) : (charge n s).sp = s.sp := rfl
@[simp] theorem charge_a (n : Nat) (s : State) : (charge n s).a = s.a := rfl
@[simp] theorem charge_x (n : Nat) (s : State) : (charge n s).x = s.x := rfl
@[simp] theorem charge_y (n : Nat) (s : State) : (charge n s).y = s.y := rfl
@[simp] theorem charge_flags (n : Nat) (s : State) : (charge n s).flags = s.flags := rfl
@[simp] theorem charge_cycles (n : Nat) (s : State) : (charge n s).cycles = s.cycles.map (fun c : Int => c - n) := rfl
@[simp] theorem charge_reports (n : Nat) (s : State) : (charge n s).reports = s.reports := rfl
@[simp] theorem charge_mem (n : Nat) (s : State) : (charge n s).mem = s.mem := rfl
@[simp] theorem charge_powerUp (n : Nat) (s : State) : (charge n s).powerUp = s.powerUp := rfl

@[simp] theorem writeByte_pc (addr : Word) (v : Byte) (s : State) : (writeByte addr v s).pc = s.pc := rfl
@[simp] theorem writeByte_sp (addr : Word) (v : Byte) (s : State) : (writeByte addr v s).sp = s.sp := rfl
@[simp] theorem writeByte_a (addr : Word) (v : Byte) (s : State) : (writeByte addr v s).a = s.a := rfl
@[simp] theorem writeByte_x (addr : Word) (v : Byte) (s : State) : (writeByte addr v s).x = s.x := rfl
@[simp] theorem writeByte_y (addr : Word) (v : Byte) (s : State) : (writeByte addr v s).y = s.y := rfl
@[simp] theorem writeByte_flags (addr : Word) (v : Byte) (s : State) : (writeByte addr v s).flags = s.flags := rfl
@[simp] theorem writeByte_cycles (addr : Word) (v : Byte) (s : State) : (writeByte addr v s).cycles = s.cycles.map (fun c : Int => c - (1 : Nat)) := rfl
@[simp] theorem writeByte_reports (addr : Word) (v : Byte) (s : State) : (writeByte addr v s).reports = s.reports := rfl
@[simp] theorem writeByte_mem (addr : Word) (v : Byte) (s : State) : (writeByte addr v s).mem = s.mem.write addr.toNat v := rfl
@[simp] theorem writeByte_powerUp (addr : Word) (v : Byte) (s : State) : (writeByte addr v s).powerUp = s.powerUp := rfl

@[simp] theorem push_pc (v : Byte) (s : State) : (push v s).pc = s.pc := rfl
@[simp] theorem push_sp (v : Byte) (s : State) : (push v s).sp = s.sp - 1 := rfl
@[simp] theorem push_a (v : Byte) (s : State) : (push v s).a = s.a := rfl
@[simp] theorem push_x (v : Byte) (s : State) : (push v s).x = s.x := rfl
@[simp] theorem push_y (v : Byte) (s : State) : (push v s).y = s.y := rfl
@[simp] theorem push_flags (v : Byte) (s : State) : (push v s).flags = s.flags := rfl
@[simp] theorem push_cycles (v : Byte) (s : State) : (push v s).cycles = (s.cycles.map (fun c : Int => c - (1 : Nat))).map (fun c : Int => c - (1 : Nat)) := rfl
@[simp] theorem push_reports (v : Byte) (s : State) : (push v s).reports = s.reports := rfl
@[simp] theorem push_mem (v : Byte) (s : State) : (push v s).mem = s.mem.write s.sp.toNat v := rfl
@[simp] theorem push_powerUp (v : Byte) (s : State) : (push v s).powerUp = s.powerUp := rfl

@[simp] theorem loadAcc_pc (operand : Byte × State) : (loadAcc operand).pc = operand.2.pc := rfl
@[simp] theorem loadAcc_sp (operand : Byte × State) : (loadAcc operand).sp = operand.2.sp := rfl
@[simp] theorem loadAcc_a (operand : Byte × State) : (loadAcc operand).a = operand.1 := rfl
@[simp] theorem loadAcc_x (operand : Byte × State) : (loadAcc operand).x = operand.2.x := rfl
@[simp] theorem loadAcc_y (operand : Byte × State) : (loadAcc operand).y = operand.2.y := rfl
@[simp] theorem loadAcc_flags (operand : Byte × State) : (loadAcc operand).flags = loadFlags operand.2.flags operand.1 := rfl
@[simp] theorem loadAcc_cycles (operand : Byte × State) : (loadAcc operand).cycles = operand.2.cycles := rfl
@[simp] theorem loadAcc_reports (operand : Byte × State) : (loadAcc operand).reports = operand.2.reports := rfl
@[simp] theorem loadAcc_mem (operand : Byte × State) : (loadAcc operand).mem = operand.2.mem := rfl
@[simp] theorem loadAcc_powerUp (operand : Byte × State) : (loadAcc operand).powerUp = operand.2.powerUp := rfl

@[simp] theorem adcCore_pc (operand : Byte × State) : (adcCore operand).pc = operand.2.pc := rfl
@[simp] theorem adcCore_sp (operand : Byte × State) : (adcCore operand).sp = operand.2.sp := rfl
@[simp] theorem adcCore_a (operand : Byte × State) : (adcCore operand).a = adcResult operand.2.a operand.1 operand.2.flags.c := rfl
@[simp] theorem adcCore_x (operand : Byte × State) : (adcCore operand).x = operand.2.x := rfl
@[simp] theorem adcCore_y (operand : Byte × State) : (adcCore operand).y = operand.2.y := rfl
@[simp] theorem adcCore_flags (operand : Byte × State) : (adcCore operand).flags = adcFlags operand.2.flags operand.2.a operand.1 := rfl
@[simp] theorem adcCore_cycles (operand : Byte × State) : (adcCore operand).cycles = operand.2.cycles := rfl
@[simp] theorem adcCore_reports (operand : Byte × State) : (adcCore operand).reports = operand.2.reports := rfl
@[simp] theorem adcCore_mem (operand : Byte × State) : (adcCore operand).mem = operand.2.mem := rfl
@[simp] theorem adcCore_powerUp (operand : Byte × State) : (adcCore operand).powerUp = operand.2.powerUp := rfl

@[simp] theorem reportInvalid_pc (addr : Word) (byte : Byte) (s : State) : (reportInvalid addr byte s).pc = s.pc := rfl
@[simp] theorem reportInvalid_sp (addr : Word) (byte : Byte) (s : State) : (reportInvalid addr byte s).sp = s.sp := rfl
@[simp] theorem reportInvalid_a (addr : Word) (byte : Byte) (s : State) : (reportInvalid addr byte s).a = s.a := rfl
@[simp] theorem reportInvalid_x (addr : Word) (byte : Byte) (s : State) : (reportInvalid addr byte s).x = s.x := rfl
@[simp] theorem reportInvalid_y (addr : Word) (byte : Byte) (s : State) : (reportInvalid addr byte s).y = s.y := rfl
@[simp] theorem reportInvalid_flags (addr : Word) (byte : Byte) (s : State) : (reportInvalid addr byte s).flags = s.flags := rfl
@[simp] theorem reportInvalid_cycles (addr : Word) (byte : Byte) (s : State) : (reportInvalid addr byte s).cycles = s.cycles := rfl
@[simp] theorem reportInvalid_reports (addr : Word) (byte : Byte) (s : State) : (reportInvalid addr byte s).reports = s.reports ++ [{ addr := addr, byte := byte }] := rfl
@[simp] theorem reportInvalid_mem (addr : Word) (byte : Byte) (s : State) : (reportInvalid addr byte s).mem = s.mem := rfl
@[simp] theorem reportInvalid_powerUp (addr : Word) (byte : Byte) (s : State) : (reportInvalid addr byte s).powerUp = s.powerUp := rfl

@[simp] theorem endCall_pc (s : State) : (endCall s).pc = s.pc := rfl
@[simp] theorem endCall_sp (s : State) : (endCall s).sp = s.sp := rfl
@[simp] theorem endCall_a (s : State) : (endCall s).a = s.a := rfl
@[simp] theorem endCall_x (s : State) : (endCall s).x = s.x := rfl
@[simp] theorem endCall_y (s : State) : (endCall s).y = s.y := rfl
@[simp] theorem endCall_flags (s : State) : (endCall s).flags = s.flags := rfl
@[simp] theorem endCall_cycles (s : State) : (endCall s).cycles = none := rfl
@[simp] theorem endCall_reports (s : State) : (endCall s).reports = s.reports := rfl
@[simp] theorem endCall_mem (s : State) : (endCall s).mem = s.mem := rfl
@[simp] theorem endCall_powerUp (s : State) : (endCall s).powerUp = s.powerUp := rfl

@[simp] theorem newMemory_pc (s : State) : (newMemory s).pc = s.pc := rfl
@[simp] theorem newMemory_sp (s : State) : (newMemory s).sp = s.sp := rfl
@[simp] theorem newMemory_a (s : State) : (newMemory s).a = s.a := rfl
@[simp] theorem newMemory_x (s : State) : (newMemory s).x = s.x := rfl
@[simp] theorem newMemory_y (s : State) : (newMemory s).y = s.y := rfl
@[simp] theorem newMemory_flags (s : State) : (newMemory s).flags = s.flags := rfl
@[simp] theorem newMemory_cycles (s : State) : (newMemory s).cycles = s.cycles := rfl
@[simp] theorem newMemory_reports (s : State) : (newMemory s).reports = s.reports := rfl
@[simp] theorem newMemory_mem (s : State) : (newMemory s).mem = [] := rfl
@[simp] theorem newMemory_powerUp (s : State) : (newMemory s).powerUp = s.powerUp := rfl

@[simp] theorem resetProcessor_pc (s : State) : (resetProcessor s).pc = 0xFFFC := rfl
@[simp] theorem resetProcessor_sp (s : State) : (resetProcessor s).sp = 0x00FF := rfl
@[simp] theorem resetProcessor_a (s : State) : (resetProcessor s).a = 0x00 := rfl
@[simp] theorem resetProcessor_x (s : State) : (resetProcessor s).x = 0x00 := rfl
@[simp] theorem resetProcessor_y (s : State) : (resetProcessor s).y = 0x00 := rfl
@[simp] theorem resetProcessor_flags (s : State) : (resetProcessor s).flags = Flags.clear := rfl
@[simp] theorem resetProcessor_cycles (s : State) : (resetProcessor s).cycles = s.cycles := rfl
@[simp] theorem resetProcessor_reports (s : State) : (resetProcessor s).reports = s.reports := rfl
@[simp] theorem resetProcessor_mem (s : State) : (resetProcessor s).mem = s.mem := rfl
@[simp] theorem resetProcessor_powerUp (s : State) : (resetProcessor s).powerUp = [] := rfl

@[simp] theorem written_pc (item : PowerUpItem) (s : State) : (written item s).pc = s.pc := rfl
@[simp] theorem written_sp (item : PowerUpItem) (s : State) : (written item s).sp = s.sp := rfl
@[simp] theorem written_a (item : PowerUpItem) (s : State) : (written item s).a = s.a := rfl
@[simp] theorem written_x (item : PowerUpItem) (s : State) : (written item s).x = s.x := rfl
@[simp] theorem written_y (item : PowerUpItem) (s : State) : (written item s).y = s.y := rfl
@[simp] theorem written_flags (item : PowerUpItem) (s : State) : (written item s).flags = s.flags := rfl
@[simp] theorem written_cycles (item : PowerUpItem) (s : State) : (written item s).cycles = s.cycles := rfl
@[simp] theorem written_reports (item : PowerUpItem) (s : State) : (written item s).reports = s.reports := rfl
@[simp] theorem written_mem (item : PowerUpItem) (s : State) : (written item s).mem = s.mem := rfl
@[simp] theorem written_powerUp (item : PowerUpItem) (s : State) : (written item s).powerUp = s.powerUp.filter (fun other => other != item) := rfl

@[simp] theorem fetchByte_value (s : State) : (fetchByte s).1 = s.mem.read s.pc.toNat := rfl
@[simp] theorem fetchByte_pc (s : State) : (fetchByte s).2.pc = s.pc + 1 := rfl
@[simp] theorem fetchByte_sp (s : State) : (fetchByte s).2.sp = s.sp := rfl
@[simp] theorem fetchByte_a (s : State) : (fetchByte s).2.a = s.a := rfl
@[simp] theorem fetchByte_x (s : State) : (fetchByte s).2.x = s.x := rfl
@[simp] theorem fetchByte_y (s : State) : (fetchByte s).2.y = s.y := rfl
@[simp] theorem fetchByte_flags (s : State) : (fetchByte s).2.flags = s.flags := rfl
@[simp] theorem fetchByte_cycles (s : State) : (fetchByte s).2.cycles = s.cycles.map (fun c : Int => c - (1 : Nat)) := rfl
@[simp] theorem fetchByte_reports (s : State) : (fetchByte s).2.reports = s.reports := rfl
@[simp] theorem fetchByte_mem (s : State) : (fetchByte s).2.mem = s.mem := rfl
@[simp] theorem fetchByte_powerUp (s : State) : (fetchByte s).2.powerUp = s.powerUp := rfl

@[simp] theorem immOperand_value (imm : Byte) (s : State) : (immOperand imm s).1 = imm := rfl
@[simp] theorem immOperand_state (imm : Byte) (s : State) : (immOperand imm s).2 = s := rfl
@[simp] theorem zpOperand_value (zp : Byte) (s : State) : (zpOperand zp s).1 = s.mem.read (zpAddress zp).toNat := rfl
@[simp] theorem zpOperand_state (zp : Byte) (s : State) : (zpOperand zp s).2 = charge 1 s := rfl
@[simp] theorem zpxOperand_value (base : Byte) (s : State) :
    (zpxOperand base s).1 = s.mem.read (zpxAddress base s.x).toNat := rfl
@[simp] theorem zpxOperand_state (base : Byte) (s : State) : (zpxOperand base s).2 = charge 1 (charge 1 s) := rfl

end Sys2Proof.Machine
end

