-- ==== Sys2Proof/Laws/Memory.lean ====
section
/-! SUPPORT. What the memory operations do: a write is seen at its address and nowhere else, and every memory operation keeps
the canonical form. -/

namespace Sys2Proof.Machine

theorem Memory.wfFrom_cons (lo k : Nat) (v : Byte) (m : Memory) :
    Memory.wfFrom lo ((k, v) :: m) = true ↔
      lo ≤ k ∧ k < memorySize ∧ v ≠ Memory.unlisted ∧ Memory.wfFrom (k + 1) m = true := by
  simp [Memory.wfFrom, and_assoc]

theorem Memory.wfFrom_weaken {lo lo' : Nat} (h : lo' ≤ lo) {m : Memory} (hm : m.wfFrom lo = true) :
    m.wfFrom lo' = true := by
  cases m with
  | nil => rfl
  | cons cell rest =>
    obtain ⟨k, v⟩ := cell
    rw [Memory.wfFrom_cons] at hm ⊢
    exact ⟨by omega, hm.2⟩

/-- Below the first listed address every address reads as unlisted. -/
theorem Memory.read_below {lo addr : Nat} {m : Memory} (hm : m.wfFrom lo = true) (h : addr < lo) :
    m.read addr = Memory.unlisted := by
  induction m generalizing lo with
  | nil => rfl
  | cons cell rest ih =>
    obtain ⟨k, v⟩ := cell
    rw [Memory.wfFrom_cons] at hm
    obtain ⟨hk, -, -, hrest⟩ := hm
    rw [Memory.read, if_neg (by omega)]
    exact ih hrest (by omega)

/-- A write is invisible at every other address, whatever the form of the list. -/
theorem Memory.read_write_other (m : Memory) {addr other : Nat} (v : Byte) (h : other ≠ addr) :
    (m.write addr v).read other = m.read other := by
  induction m with
  | nil =>
    rw [Memory.write]
    split
    · rfl
    · simp [Memory.read, Ne.symm h]
  | cons cell rest ih =>
    obtain ⟨k, w⟩ := cell
    rw [Memory.write]
    split_ifs with hlt hv heq hv
    · rfl
    · rw [Memory.read, if_neg (Ne.symm h)]
    · rw [Memory.read, if_neg (by omega)]
    · simp [Memory.read, Ne.symm h, ← heq]
    · rw [Memory.read, Memory.read, ih]

/-- A write is seen at its own address. -/
theorem Memory.read_write_same {lo : Nat} {m : Memory} (hm : m.wfFrom lo = true) (addr : Nat) (v : Byte) :
    (m.write addr v).read addr = v := by
  induction m generalizing lo with
  | nil =>
    rw [Memory.write]
    split
    · simp_all [Memory.read]
    · simp [Memory.read]
  | cons cell rest ih =>
    obtain ⟨k, w⟩ := cell
    have hcons := (Memory.wfFrom_cons lo k w rest).1 hm
    rw [Memory.write]
    split_ifs with hlt hv heq hv
    · rw [Memory.read, if_neg (by omega), Memory.read_below hcons.2.2.2 (by omega), hv]
    · simp [Memory.read]
    · rw [Memory.read_below hcons.2.2.2 (by omega), hv]
    · simp [Memory.read]
    · rw [Memory.read, if_neg (by omega)]
      exact ih hcons.2.2.2

theorem Memory.wfFrom_write {lo addr : Nat} {m : Memory} (hm : m.wfFrom lo = true) (hlo : lo ≤ addr)
    (hsize : addr < memorySize) (v : Byte) : (m.write addr v).wfFrom lo = true := by
  induction m generalizing lo with
  | nil =>
    rw [Memory.write]
    split
    · rfl
    · next hv => rw [Memory.wfFrom_cons]; exact ⟨hlo, hsize, hv, rfl⟩
  | cons cell rest ih =>
    obtain ⟨k, w⟩ := cell
    have hcons := (Memory.wfFrom_cons lo k w rest).1 hm
    rw [Memory.write]
    split_ifs with hlt hv heq hv
    · exact hm
    · rw [Memory.wfFrom_cons, Memory.wfFrom_cons]
      exact ⟨hlo, hsize, hv, by omega, hcons.2⟩
    · exact Memory.wfFrom_weaken (by omega) hcons.2.2.2
    · rw [Memory.wfFrom_cons, heq]
      exact ⟨by omega, hcons.2.1, hv, hcons.2.2.2⟩
    · rw [Memory.wfFrom_cons]
      exact ⟨hcons.1, hcons.2.1, hcons.2.2.1, ih hcons.2.2.2 (by omega)⟩

/-- A byte written inside the address space keeps the canonical form. -/
theorem Memory.wf_write {m : Memory} (hm : m.wf = true) {addr : Nat} (h : addr < memorySize) (v : Byte) :
    (m.write addr v).wf = true :=
  Memory.wfFrom_write hm (Nat.zero_le _) h v

/-- The Processor's writes are at 16-bit addresses, so they keep the canonical form. -/
theorem Memory.wf_write_word {m : Memory} (hm : m.wf = true) (addr : Word) (v : Byte) :
    (m.write addr.toNat v).wf = true :=
  Memory.wf_write hm addr.isLt v

theorem Memory.wf_writeByte {m m' : Memory} (hm : m.wf = true) {index : Nat} {v : Byte}
    (h : m.writeByte index v = .ok m') : m'.wf = true := by
  unfold Memory.writeByte at h
  split at h
  · next hi => cases h; exact Memory.wf_write hm hi v
  · cases h

theorem Memory.wf_writeWord {m m' : Memory} (hm : m.wf = true) {index : Nat} {v : Word}
    (h : m.writeWord index v = .ok m') : m'.wf = true := by
  unfold Memory.writeWord at h
  split at h
  · next hi =>
    cases h
    exact Memory.wf_write (Memory.wf_write hm hi _) (Nat.mod_lt _ (by decide)) _
  · cases h

theorem State.reset_mem_wf : State.reset.mem.wf = true := rfl

end Sys2Proof.Machine
end

