-- ==== Sys2Proof/Laws/Engine.lean ====
section
/-! SUPPORT. Everything the fetch of an instruction and one step can do, said once. -/

namespace Sys2Proof.Machine

/-- The state after `n` bytes have been fetched. -/
def fetchedState (n : Nat) (s : State) : State :=
  charge n { s with pc := s.pc + BitVec.ofNat 16 n }

theorem charge_charge (m n : Nat) (s : State) : charge m (charge n s) = charge (n + m) s := by
  cases hc : s.cycles with
  | none => simp [charge, hc]
  | some c => simp [charge, hc]; omega

theorem charge_zero (s : State) : charge 0 s = s := by
  cases s with
  | mk pc sp a x y flags cycles reports mem powerUp => cases cycles <;> simp [charge]

theorem fetchByte_eq (s : State) : fetchByte s = (s.mem.read s.pc.toNat, fetchedState 1 s) := rfl

/-- Bytes fetched after bytes fetched. -/
theorem fetchedState_add (m n : Nat) (s : State) :
    fetchedState m (fetchedState n s) = fetchedState (n + m) s := by
  have hpc : s.pc + BitVec.ofNat 16 n + BitVec.ofNat 16 m = s.pc + BitVec.ofNat 16 (n + m) := by
    rw [BitVec.add_assoc, BitVec.ofNat_add]
  have h : fetchedState m (fetchedState n s) =
      charge m (charge n { s with pc := s.pc + BitVec.ofNat 16 n + BitVec.ofNat 16 m }) := rfl
  rw [h, charge_charge, hpc]
  rfl

theorem fetchBytes_one (s : State) :
    fetchBytes 1 s = ([s.mem.read s.pc.toNat], fetchedState 1 s) := rfl

theorem fetchBytes_two (s : State) :
    fetchBytes 2 s = ([s.mem.read s.pc.toNat, s.mem.read (s.pc + 1).toNat], fetchedState 2 s) := by
  change ([s.mem.read s.pc.toNat, s.mem.read (s.pc + 1).toNat], fetchedState 1 (fetchedState 1 s)) = _
  rw [fetchedState_add]

@[simp] theorem fetchedState_mem (n : Nat) (s : State) : (fetchedState n s).mem = s.mem := rfl

@[simp] theorem fetchedState_pc (n : Nat) (s : State) : (fetchedState n s).pc = s.pc + BitVec.ofNat 16 n := rfl

/-- Everything fetching an instruction can answer: the instruction the bytes at `PC` decode to, past its bytes, or the
invalid outcome, one byte on. -/
theorem fetchInstr_cases (s : State) :
    (∃ i rest, decode (bytesAtPc s) = .ok (i, rest) ∧ fetchInstr s = .instr i (fetchedState (instrLength i) s)) ∨
    (opcodeOfByte (s.mem.read s.pc.toNat) = none ∧
      decode (bytesAtPc s) = .error (.invalidOpcode (s.mem.read s.pc.toNat)) ∧
      fetchInstr s = .invalid s.pc (s.mem.read s.pc.toNat) (fetchedState 1 s)) := by
  cases ho : opcodeOfByte (s.mem.read s.pc.toNat) with
  | none =>
    refine .inr ⟨rfl, ?_, ?_⟩
    · simp [bytesAtPc, decode, ho]
    · simp [fetchInstr, operandCountOfByte, ho, fetchBytes, decode, fetchByte_eq]
  | some o =>
    left
    cases o <;>
      simp [bytesAtPc, decode, ho, fetchInstr, operandCountOfByte, operandCount, fetchByte_eq, fetchBytes_one,
        fetchBytes_two, fetchedState_add, instrLength, opcodeOf]

/-- Everything `Step()` can answer: what the decoded instruction answers past its bytes, or one report. -/
theorem instrStep_cases (s : State) :
    (∃ i rest, decode (bytesAtPc s) = .ok (i, rest) ∧ fetchInstr s = .instr i (fetchedState (instrLength i) s) ∧
      instrStep s = exec i (fetchedState (instrLength i) s)) ∨
    (opcodeOfByte (s.mem.read s.pc.toNat) = none ∧
      fetchInstr s = .invalid s.pc (s.mem.read s.pc.toNat) (fetchedState 1 s) ∧
      instrStep s = .next (reportInvalid s.pc (s.mem.read s.pc.toNat) (fetchedState 1 s))) := by
  rcases fetchInstr_cases s with ⟨i, rest, hd, hf⟩ | ⟨ho, -, hf⟩
  · exact .inl ⟨i, rest, hd, hf, by simp [instrStep, hf]⟩
  · exact .inr ⟨ho, hf, by simp [instrStep, hf]⟩

/-- Everything one step can answer: nothing with no call running, the call's return without budget, else `Step()`. -/
theorem step_cases (s : State) :
    (s.cycles = none ∧ step s = .next s) ∨
    (∃ c, s.cycles = some c ∧ c ≤ 0 ∧ step s = .next (endCall s)) ∨
    (∃ c, s.cycles = some c ∧ 0 < c ∧ step s = instrStep s) := by
  cases hc : s.cycles with
  | none => exact .inl ⟨rfl, by simp [step, loopPass, hc]⟩
  | some c =>
    by_cases h : 0 < c
    · exact .inr (.inr ⟨c, rfl, h, by simp [step, loopPass, hc, h]⟩)
    · exact .inr (.inl ⟨c, rfl, by omega, by simp [step, loopPass, hc, h]⟩)

end Sys2Proof.Machine
end

