-- ==== Sys2Proof/Laws/PerInstr.lean ====
section
/-! SUPPORT. Facts about every instruction as syntax, one lemma per constructor: its encoding is one well-formed encoded
instruction of the length the opcode map gives (30_encoding.md R66, R71, R73). -/

namespace Sys2Proof.Laws

/-- An instruction's encoding has the length the opcode map gives and is exactly one encoded instruction. -/
def EncodedLength.Statement (i : Instr) : Prop :=
  i.wellFormed = true ∧ (encode i).length = instrLength i ∧ wellFormedBytes (encode i) = true

theorem EncodedLength.ldaImm (imm : Byte) : EncodedLength.Statement (.ldaImm imm) := ⟨rfl, rfl, rfl⟩

theorem EncodedLength.ldaZp (zp : Byte) : EncodedLength.Statement (.ldaZp zp) := ⟨rfl, rfl, rfl⟩

theorem EncodedLength.ldaZpx (base : Byte) : EncodedLength.Statement (.ldaZpx base) := ⟨rfl, rfl, rfl⟩

theorem EncodedLength.adcImm (imm : Byte) : EncodedLength.Statement (.adcImm imm) := ⟨rfl, rfl, rfl⟩

theorem EncodedLength.adcZp (zp : Byte) : EncodedLength.Statement (.adcZp zp) := ⟨rfl, rfl, rfl⟩

theorem EncodedLength.adcZpx (base : Byte) : EncodedLength.Statement (.adcZpx base) := ⟨rfl, rfl, rfl⟩

theorem EncodedLength.jsrAbs (target : Word) : EncodedLength.Statement (.jsrAbs target) := ⟨rfl, rfl, rfl⟩

end Sys2Proof.Laws
end

