-- ==== Sys2Proof/Tests/Slice0.lean ====
section
/-! SUPPORT. Tests: expected results are the vectors of 95_test_vectors.md (the id stands in each comment) or words written out
by hand from 30_encoding.md R71; and for every statement with hypotheses a witness that meets them together. -/

namespace Sys2Proof.Tests

open Sys2Proof Sys2Proof.Machine

/-! ## Helpers -/

/-- The next state of an outcome, if it is one. -/
def nextOf : Host.Outcome State Fault Refusal → Option State
  | .next t => some t
  | .fault _ => none
  | .refused _ => none

/-- What the host's operation returned and the memory it left, if it completed. -/
def answerOf : Host.Outcome (PortValue × State) Fault Refusal → Option PortValue
  | .next r => some r.1
  | .fault _ => none
  | .refused _ => none

/-- The state right after reset with bytes at an address, `PC` there, and a call running with `c` cycles left. -/
def running (pc : Word) (bytes : List Byte) (c : Int) : State :=
  { placeBytes pc bytes State.reset with pc := pc, cycles := some c }

/-- A byte of data placed in memory. -/
def poke (addr : Word) (v : Byte) (s : State) : State := placeBytes addr [v] s

/-- `A`, and the flags `C Z V N`, of the state after a step. -/
def accAndFlags (s : State) : Option (Byte × Bool × Bool × Bool × Bool) :=
  (nextOf (step s)).map (fun t => (t.a, t.flags.c, t.flags.z, t.flags.v, t.flags.n))

/-- `PC`, `SP` and `cycles` of the state after a step. -/
def pcSpCycles (s : State) : Option (Word × Word × Option Int) :=
  (nextOf (step s)).map (fun t => (t.pc, t.sp, t.cycles))

/-! ## Well-formedness: one ill-formed term for each check -/

theorem test_wf_refuses_no_bytes : wellFormedBytes [] = false := by decide
theorem test_wf_refuses_invalid_opcode : wellFormedBytes [0xEA] = false := by decide
theorem test_wf_refuses_missing_operand : wellFormedBytes [0x20, 0x00] = false := by decide
theorem test_wf_refuses_extra_byte : wellFormedBytes [0xA9, 0x42, 0x00] = false := by decide
theorem test_wf_accepts_jsr : wellFormedBytes [0x20, 0x00, 0x20] = true := by decide
theorem test_wf_accepts_every_operand : (Instr.ldaImm 0xFF).wellFormed = true ∧ (Instr.jsrAbs 0xFFFF).wellFormed = true := by decide

/-- An entry out of order, an entry equal to the unlisted value and an entry outside the address space are no canonical memory. -/
theorem test_memory_wf_refuses :
    Memory.wf [(2, 0x01), (1, 0x01)] = false ∧ Memory.wf [(1, 0x00)] = false ∧ Memory.wf [(65536, 0x01)] = false := by decide

/-! ## Decoding: words written out bit by bit from 30_encoding.md R71 -/

theorem test_decode_lda_imm : decode [0b10101001, 0x42] = .ok (.ldaImm 0x42, []) := by decide
theorem test_decode_lda_zp : decode [0b10100101, 0x10] = .ok (.ldaZp 0x10, []) := by decide
theorem test_decode_lda_zpx : decode [0b10110101, 0xFF] = .ok (.ldaZpx 0xFF, []) := by decide
theorem test_decode_adc_imm : decode [0b01101001, 0x01] = .ok (.adcImm 0x01, []) := by decide
theorem test_decode_adc_zp : decode [0b01100101, 0x20] = .ok (.adcZp 0x20, []) := by decide
theorem test_decode_adc_zpx : decode [0b01110101, 0xFF] = .ok (.adcZpx 0xFF, []) := by decide
theorem test_decode_jsr : decode [0b00100000, 0x34, 0x12, 0xEA] = .ok (.jsrAbs 0x1234, [0xEA]) := by decide
theorem test_decode_lda_absolute_is_invalid : decode [0xAD, 0x00, 0x20] = .error (.invalidOpcode 0xAD) := by decide
theorem test_decode_truncated : decode [0x20, 0x00] = .error .truncated := by decide
theorem test_table_word_jsr : decodeTableWord 24 0x123420 = some (.jsrAbs 0x1234) := by decide
theorem test_table_word_short : decodeTableWord 8 0xFFA9 = some (.ldaImm 0x00) := by decide

/-! ## LDA -/

/-- L4, with `PC` and the 2 cycles of `LDA #imm`. -/
theorem test_lda_imm_negative : accAndFlags (running 0x0200 [0xA9, 0x80] 2) = some (0x80, false, false, false, true) ∧
    pcSpCycles (running 0x0200 [0xA9, 0x80] 2) = some (0x0202, 0x00FF, some 0) := by decide
/-- L12: the operand of an opcode at 0xFFFF is at 0x0000. -/
theorem test_lda_imm_across_top : accAndFlags (running 0xFFFF [0xA9, 0x42] 2) = some (0x42, false, false, false, false) ∧
    pcSpCycles (running 0xFFFF [0xA9, 0x42] 2) = some (0x0001, 0x00FF, some 0) := by decide
/-- L6. -/
theorem test_lda_zp_negative : accAndFlags (poke 0x0010 0x80 (running 0x0200 [0xA5, 0x10] 3)) =
    some (0x80, false, false, false, true) := by decide
/-- L7, with `C` = `V` = 1 before, which LDA leaves. -/
theorem test_lda_zp_zero : accAndFlags { running 0x0200 [0xA5, 0xFF] 3 with
    a := 0x55, flags := { Flags.clear with c := true, v := true } } = some (0x00, true, true, true, false) := by decide
/-- L9: the index add wraps inside the zero page. -/
theorem test_lda_zpx_wraps : accAndFlags (poke 0x0000 0xC0 (poke 0x0100 0x11
    { running 0x0200 [0xB5, 0xFF] 4 with x := 0x01 })) = some (0xC0, false, false, false, true) := by decide
/-- L10, with the 4 cycles of `LDA zp,X`. -/
theorem test_lda_zpx_below_base : accAndFlags (poke 0x007F 0x7F { running 0x0200 [0xB5, 0x80] 4 with x := 0xFF }) =
    some (0x7F, false, false, false, false) ∧
    pcSpCycles (poke 0x007F 0x7F { running 0x0200 [0xB5, 0x80] 4 with x := 0xFF }) = some (0x0202, 0x00FF, some 0) := by decide

/-! ## ADC -/

/-- A3: signed overflow without carry. -/
theorem test_adc_imm_overflow : accAndFlags { running 0x0200 [0x69, 0x01] 2 with a := 0x7F } =
    some (0x80, false, false, true, true) := by decide
/-- A11: a carry-in makes the unsigned sum 256. -/
theorem test_adc_imm_carry_in : accAndFlags { running 0x0200 [0x69, 0x7F] 2 with
    a := 0x80, flags := { Flags.clear with c := true } } = some (0x00, true, true, false, false) := by decide
/-- A12, with the 3 cycles of `ADC zp`. -/
theorem test_adc_zp_carry : accAndFlags (poke 0x0020 0x10 { running 0x0200 [0x65, 0x20] 3 with
    a := 0xF0, flags := { Flags.clear with c := true } }) = some (0x01, true, false, false, false) ∧
    pcSpCycles (running 0x0200 [0x65, 0x20] 3) = some (0x0202, 0x00FF, some 0) := by decide
/-- A13: a byte equal to `A` doubles it. -/
theorem test_adc_zp_doubles : accAndFlags (poke 0x0020 0x40 { running 0x0200 [0x65, 0x20] 3 with a := 0x40 }) =
    some (0x80, false, false, true, true) := by decide
/-- A14: the operand is at 0x0004. -/
theorem test_adc_zpx_wraps : accAndFlags (poke 0x0004 0x30 { running 0x0200 [0x75, 0xFF] 4 with a := 0x50, x := 0x05 }) =
    some (0x80, false, false, true, true) := by decide
/-- A16: two negative operands give a positive result. -/
theorem test_adc_zpx_negative_overflow : accAndFlags (poke 0x0010 0x80 { running 0x0200 [0x75, 0x10] 4 with
    a := 0x80, flags := { Flags.clear with c := true } }) = some (0x01, true, false, true, false) := by decide

/-! ## JSR -/

/-- J1 (W6): the bytes pushed from reset, and the 7 cycles. -/
theorem test_jsr_from_reset : pcSpCycles (running 0xFFFC [0x20, 0x00, 0x20] 7) = some (0x2000, 0x00FD, some 0) ∧
    (nextOf (step (running 0xFFFC [0x20, 0x00, 0x20] 7))).map (fun t => (t.mem.read 0x00FF, t.mem.read 0x00FE)) =
      some (0xFF, 0xFE) := by decide
/-- J4: the high operand byte comes from 0x0000, and the stack pointer wraps over it. -/
theorem test_jsr_wraps :
    pcSpCycles { running 0xFFFE [0x20, 0x00, 0x30] 7 with sp := 0x0000 } = some (0x3000, 0xFFFE, some 0) ∧
    (nextOf (step { running 0xFFFE [0x20, 0x00, 0x30] 7 with sp := 0x0000 })).map
      (fun t => (t.mem.read 0x0000, t.mem.read 0xFFFF)) = some (0x00, 0x00) := by decide

/-! ## Invalid opcodes, budgets, the host's port -/

/-- V3: an invalid byte at 0xFFFF is reported and `PC` wraps. -/
theorem test_invalid_opcode_at_top : nextOf (step (running 0xFFFF [0x60] 1)) =
    some { running 0xFFFF [0x60] 1 with
      pc := 0x0000, cycles := some 0, reports := [{ addr := 0xFFFF, byte := 0x60 }] } := by decide
/-- B1 and B2: `execute(0)` runs nothing, `execute(1)` one instruction whose overrun is discarded. -/
theorem test_execute_budgets :
    nextOf (execute 0 { running 0x0200 [0xA9, 0x01, 0xA9, 0x02] 0 with cycles := none }) =
      some { running 0x0200 [0xA9, 0x01, 0xA9, 0x02] 0 with cycles := none } ∧
    (nextOf (execute 1 { running 0x0200 [0xA9, 0x01, 0xA9, 0x02] 0 with cycles := none })).map (fun t => (t.a, t.pc, t.cycles)) =
      some (0x01, 0x0202, none) := by decide
/-- B7: two budgets of 1 run two instructions. -/
theorem test_execute_resumes :
    (nextOf (andThen (execute 1 { running 0x0200 [0xA9, 0x01, 0xA9, 0x02] 0 with cycles := none }) (execute 1))).map
      (fun t => (t.a, t.pc)) = some (0x02, 0x0204) := by decide
/-- M1 and M2: a word at 0xFFFF has its high byte at 0x0000. -/
theorem test_word_wraps :
    (afterPort (.writeWord 0xFFFF 0xABCD) State.reset).mem = [(0x0000, 0xAB), (0xFFFF, 0xCD)] ∧
    answerOf (portDo (.readWord 0xFFFF) { State.reset with mem := [(0x0000, 0x12), (0xFFFF, 0x34)] }) = some (.word 0x1234) := by decide
/-- M10: an `execute` before any reset is refused. -/
theorem test_execute_before_reset : execute 5 State.constructed = .refused .executeBeforeReset := rfl
/-- The instruction of a table word is the first one run after reset. -/
theorem test_fetch_word_runs : nextOf (step (State.reset.withFetchWord 16 0x80A9)) =
    nextOf (exec (.ldaImm 0x80) { State.reset.withFetchWord 16 0x80A9 with pc := 0xFFFE, cycles := some (-1) }) := by decide

/-! ## Witnesses: for each statement with hypotheses, a state and operands that meet them together -/

theorem test_witness_EncodeOfDecode : decode ([0x20, 0xFF, 0xFF] ++ [0x00]) = .ok (.jsrAbs 0xFFFF, [0x00]) := by decide

theorem test_witness_PlacedInstructionIsFetched : ({ State.reset with pc := 0xFFFF } : State).mem.wf = true := by decide

theorem test_witness_AbsoluteOperandLowByteFirst :
    opcodeOfByte ((running 0xFFFE [0x20, 0xFF, 0x01] 1).mem.read (running 0xFFFE [0x20, 0xFF, 0x01] 1).pc.toNat) =
      some .jsrAbs := by decide

/-- One cycle left, both outcomes of decoding, and the opcode at the top of memory. Serves `StepRunsDecodedInstruction`,
`StepChargesTotal` and `PcAfterStep`, each clause. -/
theorem test_witness_StepRunsDecodedInstruction :
    (running 0xFFFF [0xB5, 0x10] 1).cycles = some 1 ∧ (0 : Int) < 1 ∧
    decode (bytesAtPc (running 0xFFFF [0xB5, 0x10] 1)) = .ok (.ldaZpx 0x10, [0x00]) ∧
    decode (bytesAtPc (running 0xFFFF [0xEA] 1)) = .error (.invalidOpcode 0xEA) := by decide

theorem test_witness_StepChargesTotal :
    (running 0xFFFC [0x20, 0x00, 0x20] 1).cycles = some 1 ∧ (0 : Int) < 1 ∧
    decode (bytesAtPc (running 0xFFFC [0x20, 0x00, 0x20] 1)) = .ok (.jsrAbs 0x2000, []) ∧
    decode (bytesAtPc (running 0xFFFC [0x00] 1)) = .error (.invalidOpcode 0x00) := by decide

theorem test_witness_PcAfterStep :
    decode (bytesAtPc (running 0xFFFE [0x20, 0x00, 0x30] 1)) = .ok (.jsrAbs 0x3000, []) ∧
    decode (bytesAtPc (running 0xFFFF [0x69, 0x10] 1)) = .ok (.adcImm 0x10, [0x00]) ∧
    opcodeOf (.adcImm 0x10) ≠ .jsrAbs ∧
    decode (bytesAtPc (running 0xFFFF [0x60] 1)) = .error (.invalidOpcode 0x60) := by decide

/-- A budget of one cycle, none left, an overrun, and no call running. -/
theorem test_witness_BudgetTestedAtBoundary :
    (running 0x0200 [] 1).cycles = some 1 ∧ (0 : Int) < 1 ∧
    (running 0x0200 [] 0).cycles = some 0 ∧ (0 : Int) ≤ 0 ∧ (running 0x0200 [] (-6)).cycles = some (-6) ∧
    State.reset.cycles = none ∧ State.reset.powerUp = [] := by decide

theorem test_witness_StepWritesOnlyItsOwn :
    (nextOf (step (running 0xFFFC [0x20, 0x00, 0x20] 1))).isSome = true ∧
    opcodeOfByte ((running 0xFFFC [0x20, 0x00, 0x20] 1).mem.read 0xFFFC) = some .jsrAbs ∧
    opcodeOfByte ((running 0xFFFC [0xA9] 1).mem.read 0xFFFC) ≠ some .jsrAbs ∧
    opcodeOfByte ((running 0xFFFC [0xEA] 1).mem.read 0xFFFC) = none := by decide

theorem test_witness_InvalidOpcodeIsReportedAndSkipped :
    (running 0xFFFF [0x60] 1).cycles = some 1 ∧ (0 : Int) < 1 ∧
    (running 0xFFFF [0x60] 1).mem.read (running 0xFFFF [0x60] 1).pc.toNat ∉ opcodeBytes := by decide

theorem test_witness_LoadStepFromBytes :
    (running 0xFFFF [0xA9, 0x42] 1).cycles = some 1 ∧ (0 : Int) < 1 ∧
    (running 0xFFFF [0xA9, 0x42] 1).mem.read 0xFFFF = 0xA9 ∧ (running 0xFFFF [0xA5, 0xFF] 1).mem.read 0xFFFF = 0xA5 ∧
    (running 0xFFFF [0xB5, 0xFF] 1).mem.read 0xFFFF = 0xB5 := by decide

theorem test_witness_AddStepFromBytes :
    (running 0xFFFF [0x69, 0x42] 1).cycles = some 1 ∧ (0 : Int) < 1 ∧
    (running 0xFFFF [0x69, 0x42] 1).mem.read 0xFFFF = 0x69 ∧ (running 0xFFFF [0x65, 0xFF] 1).mem.read 0xFFFF = 0x65 ∧
    (running 0xFFFF [0x75, 0xFF] 1).mem.read 0xFFFF = 0x75 := by decide

theorem test_witness_LoadAndAddFrame :
    (isLoad (.ldaZpx 0xFF) = true ∨ isAdd (.ldaZpx 0xFF) = true) ∧
    (isLoad (.adcZpx 0xFF) = true ∨ isAdd (.adcZpx 0xFF) = true) ∧
    (∃ t, exec (.ldaZpx 0xFF) State.reset = .next t) ∧ (∃ t, exec (.adcZpx 0xFF) State.reset = .next t) :=
  ⟨by decide, by decide, ⟨_, rfl⟩, ⟨_, rfl⟩⟩

/-- A memory that differs from the reset memory only outside the zero page, right above it. -/
theorem test_witness_DataReadsStayInZeroPage :
    (isLoad (.ldaZp 0xFF) = true ∨ isAdd (.ldaZp 0xFF) = true) ∧
    (∀ addr, addr < 256 → Memory.read [(256, 0x11)] addr = State.reset.mem.read addr) :=
  ⟨by decide, fun addr h => by simp [Memory.read, State.reset, show (256 : Nat) ≠ addr by omega]⟩

theorem test_witness_JsrResult : State.reset.mem.wf = true ∧ (∃ t, exec (.jsrAbs 0xFFFF) State.reset = .next t) :=
  ⟨rfl, ⟨_, rfl⟩⟩

theorem test_witness_JsrFrame : ∃ t, exec (.jsrAbs 0x2000) (running 0x0000 [] 1) = .next t := ⟨_, rfl⟩

theorem test_witness_JsrPushesAddressOfItsLastByte :
    (running 0xFFFE [0x20, 0x00, 0x30] 7).mem.wf = true ∧
    fetchInstr (running 0xFFFE [0x20, 0x00, 0x30] 7) =
      .instr (.jsrAbs 0x3000) { running 0xFFFE [0x20, 0x00, 0x30] 7 with pc := 0x0001, cycles := some 4 } := by decide

theorem test_witness_StackPointerWraps :
    State.reset.mem.wf = true ∧ ({ State.reset with sp := 0x0000 } : State).sp = 0x0000 ∧
    ({ State.reset with sp := 0xFFFC } : State).sp = 0xFFFC ∧ ({ State.reset with sp := 0xFFFD } : State).sp = 0xFFFD := by decide

theorem test_witness_JsrStepFromBytes :
    (running 0xFFFE [0x20, 0x00, 0x30] 1).mem.wf = true ∧ (running 0xFFFE [0x20, 0x00, 0x30] 1).cycles = some 1 ∧
    (0 : Int) < 1 ∧ (running 0xFFFE [0x20, 0x00, 0x30] 1).mem.read 0xFFFE = 0x20 := by decide

theorem test_witness_PushIsSeenByNextFetch : ({ State.reset with sp := 0x0000 } : State).mem.wf = true := by decide

theorem test_witness_InertFlagsAndYDoNothing : State.reset.cycles = none := rfl

theorem test_witness_ResultFlagsAreNotRead : isAdd (.adcImm 0xFF) = true ∧ isAdd (.adcZp 0xFF) = true ∧ isAdd (.adcZpx 0xFF) = true := by decide

theorem test_witness_invariant_reset : MachineInv State.reset :=
  ⟨rfl, by simp [State.reset], by simp [State.reset], by simp [State.reset]⟩

/-- A running state that meets the invariant, and its step. -/
theorem test_witness_StepKeepsInv :
    MachineInv (running 0xFFFC [0xEA] 1) ∧ (nextOf (step (running 0xFFFC [0xEA] 1))).isSome = true :=
  ⟨⟨by decide, by simp [running, placeBytes, State.reset], fun _ => rfl,
    fun c hc => by have h : (1 : Int) = c := Option.some.inj hc; omega⟩, by decide⟩

theorem test_witness_HostOperationsKeepInv :
    MachineInv State.reset ∧ (answerOf (portDo (.execute 1) State.reset)).isSome = true :=
  ⟨test_witness_invariant_reset, by decide⟩

/-- Serves every statement about an admitted call: the least budget that runs something, and the largest budget. -/
theorem test_witness_ExecuteRunsLeastSufficientCount :
    State.reset.cycles = none ∧ State.reset.powerUp = [] ∧ 1 ≤ (1 : BitVec 32).toNat ∧ 1 ≤ (0xFFFFFFFF : BitVec 32).toNat := by decide

theorem test_witness_ExecuteReturns : State.reset.cycles = none ∧ State.reset.powerUp = [] := by decide

theorem test_witness_ExecuteIsTheMachineRun :
    nextOf (beginCall 0 State.reset) = some { State.reset with cycles := some 0 } ∧ (0 : BitVec 32).toNat + 1 ≤ 1 := by decide

theorem test_witness_SingleStepping :
    State.reset.cycles = none ∧ State.reset.powerUp = [] ∧
    2 ≤ stepCycles { running 0x0200 [0xA9, 0x01] 0 with cycles := none } := by decide

theorem test_witness_EveryCellIsPlainStorage :
    State.reset.cycles = none ∧ State.reset.mem.wf = true ∧ 65535 < 65536 ∧ 0 < 65536 := by decide

theorem test_witness_OnlyHostIndicesFail :
    State.reset.cycles = none ∧ 65536 ≤ 65536 ∧ 65535 < 65536 ∧
    (∃ f, portDo (.memGet 65536) State.reset = .fault f) :=
  ⟨rfl, by decide, by decide, ⟨_, rfl⟩⟩

theorem test_witness_WordRoundTrip : Memory.wf [(0, 0x12), (65535, 0x34)] = true ∧ 65535 < 65536 := by decide

theorem test_witness_ResetFromAnyState : State.constructed.cycles = none := rfl

theorem test_witness_Construction : State.reset.cycles = none := rfl

/-- Eleven host writes, the flags before the registers. -/
def elevenWrites : List PortOp :=
  [.setFlag .n true, .setFlag .v true, .setFlag .u true, .setFlag .b true, .setFlag .d true, .setFlag .i true,
    .setFlag .z true, .setFlag .c true, .setReg8 .y 3, .setReg8 .x 2, .setReg8 .a 1]

/-- In a state that holds every power-up value, and in one that holds none. -/
theorem test_witness_ExecuteAdmission :
    State.constructed.cycles = none ∧ State.constructed.powerUp ≠ [] ∧ State.reset.powerUp = [] ∧
    PortOp.newProcessor ∉ elevenWrites ∧ (∀ r, ∃ v, PortOp.setReg8 r v ∈ elevenWrites) ∧
    (∀ f, ∃ bit, PortOp.setFlag f bit ∈ elevenWrites) :=
  ⟨rfl, by simp [State.constructed, newProcessor, PowerUpItem.all], rfl, by decide,
    fun r => by cases r <;> simp [elevenWrites], fun f => by cases f <;> simp [elevenWrites]⟩

theorem test_witness_NoHostMoveDuringCall : (running 0xFFFC [] 0).cycles = some 0 := rfl

theorem test_witness_HostWritesAreReadBack : State.reset.cycles = none := rfl

end Sys2Proof.Tests
end

section
/-! What `Step()` and a step do in two states that agree on what the fetch and the loop's test read: `PC`, memory and `cycles`.
Both take the same branch, so a statement that compares the two has one goal per branch. -/

namespace Sys2Proof.Machine

theorem instrStep_of_decode_ok {s : State} {i : Instr} {rest : List Byte} (h : decode (bytesAtPc s) = .ok (i, rest)) :
    instrStep s = exec i (fetchedState (instrLength i) s) := by
  rcases fetchInstr_cases s with ⟨j, rest', hd, hf⟩ | ⟨-, hd, -⟩
  · cases h.symm.trans hd
    simp [instrStep, hf]
  · cases h.symm.trans hd

theorem instrStep_of_decode_error {s : State} {e : DecodeError} (h : decode (bytesAtPc s) = .error e) :
    instrStep s = .next (reportInvalid s.pc (s.mem.read s.pc.toNat) (fetchedState 1 s)) := by
  rcases fetchInstr_cases s with ⟨j, rest', hd, -⟩ | ⟨-, -, hf⟩
  · cases h.symm.trans hd
  · simp [instrStep, hf]

/-- Two states with the same memory and `PC` run the same instruction, or report the same byte. -/
theorem instrStep_cases_of_same_bytes {s t : State} (hmem : t.mem = s.mem) (hpc : t.pc = s.pc) :
    (∃ i, instrStep s = exec i (fetchedState (instrLength i) s) ∧ instrStep t = exec i (fetchedState (instrLength i) t)) ∨
    (∃ addr byte, instrStep s = .next (reportInvalid addr byte (fetchedState 1 s)) ∧
      instrStep t = .next (reportInvalid addr byte (fetchedState 1 t))) := by
  have hbytes : bytesAtPc t = bytesAtPc s := by simp only [bytesAtPc, hmem, hpc]
  cases hd : decode (bytesAtPc s) with
  | ok decoded =>
    exact .inl ⟨decoded.1, instrStep_of_decode_ok hd, instrStep_of_decode_ok (hbytes ▸ hd)⟩
  | error e =>
    refine .inr ⟨s.pc, s.mem.read s.pc.toNat, instrStep_of_decode_error hd, ?_⟩
    rw [instrStep_of_decode_error (hbytes ▸ hd), hmem, hpc]

theorem step_of_no_call {s : State} (h : s.cycles = none) : step s = .next s := by
  simp [step, loopPass, h]

theorem step_of_no_budget {s : State} {c : Int} (h : s.cycles = some c) (hc : c ≤ 0) : step s = .next (endCall s) := by
  simp [step, loopPass, h, hc]

theorem step_of_budget {s : State} {c : Int} (h : s.cycles = some c) (hc : 0 < c) : step s = instrStep s := by
  simp [step, loopPass, h, hc]

/-- Two states with the same memory, `PC` and `cycles` take the same branch of the loop (40_engine.md R86). -/
theorem step_cases_of_same_fetch {s t : State} (hmem : t.mem = s.mem) (hpc : t.pc = s.pc) (hcycles : t.cycles = s.cycles) :
    (step s = .next s ∧ step t = .next t) ∨
    (step s = .next (endCall s) ∧ step t = .next (endCall t)) ∨
    (∃ i, step s = exec i (fetchedState (instrLength i) s) ∧ step t = exec i (fetchedState (instrLength i) t)) ∨
    (∃ addr byte, step s = .next (reportInvalid addr byte (fetchedState 1 s)) ∧
      step t = .next (reportInvalid addr byte (fetchedState 1 t))) := by
  rcases step_cases s with ⟨hc, hs⟩ | ⟨c, hc, hle, hs⟩ | ⟨c, hc, hpos, hs⟩
  · exact .inl ⟨hs, step_of_no_call (hcycles.trans hc)⟩
  · exact .inr (.inl ⟨hs, step_of_no_budget (hcycles.trans hc) hle⟩)
  · rw [hs, step_of_budget (hcycles.trans hc) hpos]
    exact .inr (.inr (instrStep_cases_of_same_bytes hmem hpc))

end Sys2Proof.Machine
end

section
/-! What the host's writes of a register or a flag do between calls (60_exceptions.md R148). -/

namespace Sys2Proof.Machine

@[simp] theorem getFlag_putFlag_same (f : Flags) (name : FlagName) (bit : Bool) :
    getFlag (putFlag f name bit) name = bit := by
  cases name <;> rfl

theorem afterPort_setFlag {s : State} (h : s.cycles = none) (f : FlagName) (bit : Bool) :
    afterPort (.setFlag f bit) s = setFlag s f bit := by
  simp [afterPort, portDo, h]

theorem afterPort_setReg8 {s : State} (h : s.cycles = none) (r : Reg8) (v : Byte) :
    afterPort (.setReg8 r v) s = setReg8 s r v := by
  simp [afterPort, portDo, h]

theorem getFlag_afterPort_setFlag {s : State} (h : s.cycles = none) (f : FlagName) (bit : Bool) :
    getFlag (afterPort (.setFlag f bit) s).flags f = bit := by
  simp [afterPort_setFlag h, setFlag]

theorem reg8_afterPort_setReg8 {s : State} (h : s.cycles = none) (r : Reg8) (v : Byte) :
    reg8 (afterPort (.setReg8 r v) s) r = v := by
  rw [afterPort_setReg8 h]
  cases r <;> rfl

end Sys2Proof.Machine
end

section
/-! `I`, `D`, `B`, `U` and `Y` (10_state.md R25, R32): every part of a step commutes with replacing them. -/

namespace Sys2Proof.Machine

section WithInert

variable (i d b u : Bool) (y : Byte)

theorem fetchedState_withInert (n : Nat) (s : State) :
    fetchedState n (withInert i d b u y s) = withInert i d b u y (fetchedState n s) := rfl

theorem endCall_withInert (s : State) :
    endCall (withInert i d b u y s) = withInert i d b u y (endCall s) := rfl

theorem reportInvalid_withInert (addr : Word) (byte : Byte) (s : State) :
    reportInvalid addr byte (withInert i d b u y s) = withInert i d b u y (reportInvalid addr byte s) := rfl

theorem push_withInert (v : Byte) (s : State) :
    push v (withInert i d b u y s) = withInert i d b u y (push v s) := rfl

/-- The load status writes `Z` and `N` only. -/
theorem loadAcc_withInert (m : Byte) (s : State) :
    loadAcc (m, withInert i d b u y s) = withInert i d b u y (loadAcc (m, s)) := rfl

/-- ADC reads `C` and writes `C`, `Z`, `N` and `V`: it is binary whatever `D` holds. -/
theorem adcCore_withInert (m : Byte) (s : State) :
    adcCore (m, withInert i d b u y s) = withInert i d b u y (adcCore (m, s)) := rfl

theorem immOperand_withInert (imm : Byte) (s : State) :
    immOperand imm (withInert i d b u y s) = ((immOperand imm s).1, withInert i d b u y (immOperand imm s).2) := rfl

theorem zpOperand_withInert (zp : Byte) (s : State) :
    zpOperand zp (withInert i d b u y s) = ((zpOperand zp s).1, withInert i d b u y (zpOperand zp s).2) := rfl

/-- The index is `X`, never `Y`. -/
theorem zpxOperand_withInert (base : Byte) (s : State) :
    zpxOperand base (withInert i d b u y s) = ((zpxOperand base s).1, withInert i d b u y (zpxOperand base s).2) := rfl

theorem exec_withInert (instr : Instr) (s : State) :
    exec instr (withInert i d b u y s) = mapNext (withInert i d b u y) (exec instr s) := by
  cases instr with
  | ldaImm imm => simp only [exec, execLdaImm, mapNext, immOperand_withInert, loadAcc_withInert]
  | ldaZp zp => simp only [exec, execLdaZp, mapNext, zpOperand_withInert, loadAcc_withInert]
  | ldaZpx base => simp only [exec, execLdaZpx, mapNext, zpxOperand_withInert, loadAcc_withInert]
  | adcImm imm => simp only [exec, execAdcImm, mapNext, immOperand_withInert, adcCore_withInert]
  | adcZp zp => simp only [exec, execAdcZp, mapNext, zpOperand_withInert, adcCore_withInert]
  | adcZpx base => simp only [exec, execAdcZpx, mapNext, zpxOperand_withInert, adcCore_withInert]
  | jsrAbs target =>
    simp only [exec, execJsrAbs, mapNext, push_withInert]
    rfl

theorem step_withInert (s : State) :
    step (withInert i d b u y s) = mapNext (withInert i d b u y) (step s) := by
  have hbranch := step_cases_of_same_fetch (s := s) (t := withInert i d b u y s) rfl rfl rfl
  obtain ⟨hs, ht⟩ | ⟨hs, ht⟩ | ⟨instr, hs, ht⟩ | ⟨addr, byte, hs, ht⟩ := hbranch
  · rw [hs, ht, mapNext]
  · rw [hs, ht, mapNext, endCall_withInert]
  · rw [hs, ht, fetchedState_withInert, exec_withInert]
  · rw [hs, ht, mapNext, fetchedState_withInert, reportInvalid_withInert]

theorem resetProcessor_withInert (s : State) :
    resetProcessor (withInert i d b u y s) = resetProcessor s := rfl

end WithInert

theorem withInert_resetProcessor (s : State) :
    withInert false false false false 0x00 (resetProcessor s) = resetProcessor s := rfl

/-- Settles O28: every branch of a step commutes with replacing the five, reset overwrites them, and a host write is read back. -/
theorem inertFlagsAndYDoNothing : Obligations.InertFlagsAndYDoNothing := by
  refine ⟨fun s i d b u y => step_withInert i d b u y s,
    fun s => ⟨resetProcessor_withInert true true true true 0xFF s, resetProcessor_y s, withInert_resetProcessor s⟩, ?_⟩
  intro s bit v h
  exact ⟨getFlag_afterPort_setFlag h .i bit, getFlag_afterPort_setFlag h .d bit, getFlag_afterPort_setFlag h .b bit,
    getFlag_afterPort_setFlag h .u bit, reg8_afterPort_setReg8 h .y v⟩

end Sys2Proof.Machine
end

section
/-! No step and no `execute` call ends in a fault (60_exceptions.md section 3). -/

namespace Sys2Proof.Machine

theorem exec_next (i : Instr) (s : State) : ∃ t, exec i s = .next t := by
  cases i <;> exact ⟨_, rfl⟩

theorem instrStep_next (s : State) : ∃ t, instrStep s = .next t := by
  rcases instrStep_cases s with ⟨i, _, -, -, hexec⟩ | ⟨-, -, hreport⟩
  · exact hexec ▸ exec_next i _
  · exact ⟨_, hreport⟩

theorem step_next (s : State) : ∃ t, step s = .next t := by
  rcases step_cases s with ⟨-, hidle⟩ | ⟨_, -, -, hreturn⟩ | ⟨_, -, -, hrun⟩
  · exact ⟨_, hidle⟩
  · exact ⟨_, hreturn⟩
  · exact hrun ▸ instrStep_next s

theorem step_ne_fault (s : State) (f : Fault) : step s ≠ .fault f := by
  obtain ⟨t, ht⟩ := step_next s
  simp [ht]

theorem runCall_next (fuel : Nat) (s : State) : ∃ t, runCall fuel s = .next t := by
  induction fuel generalizing s with
  | zero => exact ⟨s, rfl⟩
  | succ fuel ih =>
    obtain ⟨t, ht⟩ := step_next s
    cases hc : s.cycles with
    | none => exact ⟨s, by simp [runCall, hc]⟩
    | some c => simpa [runCall, hc, ht] using ih t

theorem beginCall_ne_fault (budget : BitVec 32) (s : State) (f : Fault) : beginCall budget s ≠ .fault f := by
  unfold beginCall
  split_ifs <;> simp

/-- A call is refused where it begins, or it returns. -/
theorem execute_ne_fault (budget : BitVec 32) (s : State) (f : Fault) : execute budget s ≠ .fault f := by
  unfold execute
  cases hbegin : beginCall budget s with
  | next t =>
    obtain ⟨u, hu⟩ := runCall_next (budget.toNat + 1) t
    simp [hu]
  | fault g => exact absurd hbegin (beginCall_ne_fault budget s g)
  | refused r => simp

end Sys2Proof.Machine
end

section
/-! The host's memory operations (20_memory.md R46 to R48, R50; 60_exceptions.md R131, R149): what one below 65536 does, and
that an index of 65536 or more is the only thing any operation of the host can fail on. -/

namespace Sys2Proof.Machine

theorem Memory.read_write {m : Memory} (hm : m.wf = true) (addr other : Nat) (v : Byte) :
    (m.write addr v).read other = if other = addr then v else m.read other := by
  split_ifs with h
  · rw [h, Memory.read_write_same hm]
  · exact Memory.read_write_other m v h

theorem portDo_memGet {s : State} (h : s.cycles = none) {index : Nat} (hi : index < memorySize) :
    portDo (.memGet index) s = .next (.byte (s.mem.read index), s) := by
  simp [portDo, h, Memory.readByte, hi, answerWith]

theorem portDo_memSet {s : State} (h : s.cycles = none) {index : Nat} (hi : index < memorySize) (v : Byte) :
    portDo (.memSet index v) s = .next (.unit, { s with mem := s.mem.write index v }) := by
  simp [portDo, h, Memory.writeByte, hi, storeMemory]

theorem afterPort_memSet {s : State} (h : s.cycles = none) {index : Nat} (hi : index < memorySize) (v : Byte) :
    afterPort (.memSet index v) s = { s with mem := s.mem.write index v } := by
  rw [afterPort, portDo_memSet h hi]

/-- Settles O38: a write is seen at its own address and at no other. -/
theorem everyCellIsPlainStorage : Obligations.EveryCellIsPlainStorage := by
  intro s index other v h hm hi ho
  have hread := portDo_memGet (s := { s with mem := s.mem.write index v }) h ho
  rw [afterPort_memSet h hi, hread, Memory.read_write hm]

/-- The index an operation gives the memory component. -/
def PortOp.memoryIndex : PortOp → Option Nat
  | .memGet index => some index
  | .memSet index _ => some index
  | .readWord index => some index
  | .writeWord index _ => some index
  | _ => none

theorem PortOp.memoryIndex_eq_some {op : PortOp} {index : Nat} (h : op.memoryIndex = some index) :
    op = .memGet index ∨ (∃ v, op = .memSet index v) ∨ op = .readWord index ∨ (∃ w, op = .writeWord index w) := by
  cases op <;> simp_all [PortOp.memoryIndex]

theorem answerWith_eq_fault_iff {α : Type} (value : α → PortValue) (s : State) (result : Except Fault α) (f : Fault) :
    answerWith value s result = .fault f ↔ result = .error f := by
  cases result <;> simp [answerWith]

theorem storeMemory_eq_fault_iff (s : State) (result : Except Fault Memory) (f : Fault) :
    storeMemory s result = .fault f ↔ result = .error f := by
  cases result <;> simp [storeMemory]

/-- The test of the index that the four operations of the memory component share. -/
theorem indexTest_eq_error_iff {α : Type} (index : Nat) (result : α) (f : Fault) :
    (if index < memorySize then Except.ok result else .error (.addressOutOfRange index)) = .error f ↔
      memorySize ≤ index ∧ f = .addressOutOfRange index := by
  split_ifs with hi
  · simp [hi]
  · simp [Nat.le_of_not_lt hi, eq_comm]

theorem Memory.readByte_eq_error_iff (m : Memory) (index : Nat) (f : Fault) :
    m.readByte index = .error f ↔ memorySize ≤ index ∧ f = .addressOutOfRange index :=
  indexTest_eq_error_iff index _ f

theorem Memory.writeByte_eq_error_iff (m : Memory) (index : Nat) (v : Byte) (f : Fault) :
    m.writeByte index v = .error f ↔ memorySize ≤ index ∧ f = .addressOutOfRange index :=
  indexTest_eq_error_iff index _ f

theorem Memory.readWord_eq_error_iff (m : Memory) (index : Nat) (f : Fault) :
    m.readWord index = .error f ↔ memorySize ≤ index ∧ f = .addressOutOfRange index :=
  indexTest_eq_error_iff index _ f

theorem Memory.writeWord_eq_error_iff (m : Memory) (index : Nat) (w : Word) (f : Fault) :
    m.writeWord index w = .error f ↔ memorySize ≤ index ∧ f = .addressOutOfRange index :=
  indexTest_eq_error_iff index _ f

theorem returned_execute_ne_fault (budget : BitVec 32) (s : State) (f : Fault) :
    returned (execute budget s) ≠ .fault f := by
  cases hrun : execute budget s with
  | next t => simp [returned]
  | fault g => exact absurd hrun (execute_ne_fault budget s g)
  | refused r => simp [returned]

/-- Between calls an operation fails exactly when it gives the memory component an index past the address space. -/
theorem portDo_eq_fault_iff {s : State} (h : s.cycles = none) (op : PortOp) (f : Fault) :
    portDo op s = .fault f ↔
      ∃ index, op.memoryIndex = some index ∧ memorySize ≤ index ∧ f = .addressOutOfRange index := by
  cases op with
  | memGet index => simp [portDo, h, answerWith_eq_fault_iff, Memory.readByte_eq_error_iff, PortOp.memoryIndex]
  | memSet index v => simp [portDo, h, storeMemory_eq_fault_iff, Memory.writeByte_eq_error_iff, PortOp.memoryIndex]
  | readWord index => simp [portDo, h, answerWith_eq_fault_iff, Memory.readWord_eq_error_iff, PortOp.memoryIndex]
  | writeWord index v => simp [portDo, h, storeMemory_eq_fault_iff, Memory.writeWord_eq_error_iff, PortOp.memoryIndex]
  | execute budget => simp [portDo, h, returned_execute_ne_fault, PortOp.memoryIndex]
  | _ => simp [portDo, h, PortOp.memoryIndex]

/-- An operation made during a call is refused, so one that fails was made between calls. -/
theorem cycles_eq_none_of_portDo_fault {op : PortOp} {s : State} {f : Fault} (h : portDo op s = .fault f) :
    s.cycles = none := by
  cases hc : s.cycles with
  | none => rfl
  | some c => simp [portDo, hc] at h

theorem afterPort_of_fault {op : PortOp} {s : State} {f : Fault} (h : portDo op s = .fault f) :
    afterPort op s = s := by
  rw [afterPort, h]

/-- Settles O39: the operations that fail are those with a memory index of 65536 or more, and a step always has a next
state. -/
theorem onlyHostIndicesFail : Obligations.OnlyHostIndicesFail := by
  refine ⟨?_, fun s index v h hi => ⟨portDo_memGet h hi, portDo_memSet h hi v⟩, ?_, step_ne_fault⟩
  · intro s index v w h hi
    have fails {op : PortOp} (hop : op.memoryIndex = some index) : portDo op s = .fault (.addressOutOfRange index) :=
      (portDo_eq_fault_iff h op _).2 ⟨index, hop, hi, rfl⟩
    exact ⟨fails rfl, fails rfl, afterPort_of_fault (fails rfl), fails rfl, fails rfl, afterPort_of_fault (fails rfl)⟩
  · intro op s f hfail
    obtain ⟨index, hop, hi, hf⟩ := (portDo_eq_fault_iff (cycles_eq_none_of_portDo_fault hfail) op f).1 hfail
    exact ⟨index, hi, hf, PortOp.memoryIndex_eq_some hop⟩

end Sys2Proof.Machine
end

section
/-! The absolute operand (30_encoding.md R70): a JSR's two operand bytes as they stand in memory, low byte first. -/

namespace Sys2Proof.Machine

theorem decode_bytesAtPc_of_jsrAbs {s : State} (h : opcodeOfByte (s.mem.read s.pc.toNat) = some .jsrAbs) :
    decode (bytesAtPc s) =
      .ok (.jsrAbs (hiLo (s.mem.read (s.pc + 2).toNat) (s.mem.read (s.pc + 1).toNat)), []) := by
  simp [bytesAtPc, decode, h]

/-- Where bytes decode, the fetch answers the instruction they decode to. -/
theorem fetchInstr_of_decode_ok {s : State} {i : Instr} {rest : List Byte} (h : decode (bytesAtPc s) = .ok (i, rest)) :
    fetchInstr s = .instr i (fetchedState (instrLength i) s) := by
  rcases fetchInstr_cases s with ⟨j, rest', hd, hf⟩ | ⟨-, hd, -⟩
  · cases h.symm.trans hd
    exact hf
  · cases h.symm.trans hd

/-- Settles O6: the fetch answers what the bytes at `PC` decode to, and there the second operand byte is the high one. -/
theorem absoluteOperandLowByteFirst : Obligations.AbsoluteOperandLowByteFirst := by
  refine ⟨fun s h => ⟨_, _, fetchInstr_of_decode_ok (decode_bytesAtPc_of_jsrAbs h), rfl, ?_⟩, by decide⟩
  rw [toNat_hiLo]
  omega

end Sys2Proof.Machine
end

section
/-! The zero-page operand forms (30_encoding.md R67 to R69): their addresses as numbers, and each form of LDA and ADC as the
immediate form on the byte at that address. -/

namespace Sys2Proof.Machine

theorem toNat_zext16_le (v : Byte) : (zext16 v).toNat ≤ 0xFF := by
  rw [toNat_zext16]
  exact Nat.le_of_lt_succ v.isLt

/-- The index add wraps in the zero page. -/
theorem toNat_zpxAddress (base x : Byte) : (zpxAddress base x).toNat = (base.toNat + x.toNat) % 256 := by
  rw [zpxAddress, toNat_zext16, BitVec.toNat_add]

/-- The zero-page form is the byte at its address, with the data read charged. -/
theorem zpOperand_eq_immOperand (zp : Byte) (s : State) :
    zpOperand zp s = immOperand (s.mem.read (zpAddress zp).toNat) (charge 1 s) := rfl

/-- The zero-page,X form is the byte at its address, with the index computation and the data read charged. -/
theorem zpxOperand_eq_immOperand (base : Byte) (s : State) :
    zpxOperand base s = immOperand (s.mem.read (zpxAddress base s.x).toNat) (charge 2 s) := by
  apply Prod.ext
  · rfl
  · rw [zpxOperand_state, charge_charge, immOperand_state]

theorem exec_ldaImm (imm : Byte) (s : State) : exec (.ldaImm imm) s = .next (loadAcc (immOperand imm s)) := rfl

theorem exec_ldaZp (zp : Byte) (s : State) : exec (.ldaZp zp) s = .next (loadAcc (zpOperand zp s)) := rfl

theorem exec_ldaZpx (base : Byte) (s : State) : exec (.ldaZpx base) s = .next (loadAcc (zpxOperand base s)) := rfl

theorem exec_adcImm (imm : Byte) (s : State) : exec (.adcImm imm) s = .next (adcCore (immOperand imm s)) := rfl

theorem exec_adcZp (zp : Byte) (s : State) : exec (.adcZp zp) s = .next (adcCore (zpOperand zp s)) := rfl

theorem exec_adcZpx (base : Byte) (s : State) : exec (.adcZpx base) s = .next (adcCore (zpxOperand base s)) := rfl

/-- Settles O15: both addresses are zero-extended bytes, and a form of LDA or ADC uses its operand only through the byte and the
state that the operand form answers. -/
theorem operandForms : Obligations.OperandForms := by
  intro s
  refine ⟨fun imm => ⟨_, exec_ldaImm imm s, rfl⟩, fun zp => ⟨rfl, toNat_zext16 zp, toNat_zext16_le zp⟩,
    fun base => ⟨rfl, toNat_zpxAddress base s.x, toNat_zext16_le (base + s.x)⟩, by decide, ?_, ?_, ?_, ?_⟩
  · intro zp
    rw [exec_ldaZp, zpOperand_eq_immOperand, exec_ldaImm]
  · intro base
    rw [exec_ldaZpx, zpxOperand_eq_immOperand, exec_ldaImm]
  · intro zp
    rw [exec_adcZp, zpOperand_eq_immOperand, exec_adcImm]
  · intro base
    rw [exec_adcZpx, zpxOperand_eq_immOperand, exec_adcImm]

end Sys2Proof.Machine
end

section
/-! The LDA family (41_load.md R105 to R108): the load status in terms of the loaded value as a number, and what each form of
LDA does. -/

namespace Sys2Proof.Machine

theorem beq_zero_eq_decide_toNat (v : Byte) : (v == 0x00) = decide (v.toNat = 0) := by
  rw [Bool.beq_eq_decide_eq, decide_eq_decide]
  exact BitVec.toNat_inj.symm

/-- Bit 7 says that the byte is at least half of 256. -/
theorem bit7_eq_decide_le (v : Byte) : bit7 v = decide (128 ≤ v.toNat) :=
  (BitVec.msb_eq_getLsbD_last v).symm.trans (BitVec.msb_eq_decide v)

theorem loadFlags_eq (f : Flags) (v : Byte) :
    loadFlags f v = { f with z := decide (v.toNat = 0), n := decide (128 ≤ v.toNat) } := by
  rw [loadFlags, beq_zero_eq_decide_toNat, bit7_eq_decide_le]

theorem loadAcc_immOperand (m : Byte) (s : State) : loadAcc (immOperand m s) = loadedState m s := by
  rw [loadAcc, loadFlags_eq]
  rfl

/-- Settles O14: each form is the immediate form on its byte, and that form writes `A` and the load status only. -/
theorem loadResults : Obligations.LoadResults := by
  intro s
  refine ⟨?_, ?_, ?_⟩
  · intro imm
    rw [exec_ldaImm, loadAcc_immOperand]
  · intro zp
    rw [exec_ldaZp, zpOperand_eq_immOperand, loadAcc_immOperand, zpAddress, toNat_zext16]
    rfl
  · intro base
    rw [exec_ldaZpx, zpxOperand_eq_immOperand, loadAcc_immOperand, toNat_zpxAddress]
    rfl

end Sys2Proof.Machine
end

section
/-! The ADC family (42_arithmetic.md R110 to R115): the result and the four flags in terms of the integer sum, and what each form
of ADC does. -/

namespace Sys2Proof.Machine

theorem adcSum_eq (a m : Byte) (carryIn : Bool) :
    adcSum a m carryIn = a.toNat + m.toNat + (if carryIn then 1 else 0) := by
  rw [adcSum, Bool.toNat, Bool.cond_eq_ite]

theorem toNat_adcResult (a m : Byte) (carryIn : Bool) : (adcResult a m carryIn).toNat = adcSum a m carryIn % 256 :=
  BitVec.toNat_ofNat _ _

theorem adcResult_eq_ofNat_mod (a m : Byte) (carryIn : Bool) :
    adcResult a m carryIn = BitVec.ofNat 8 (adcSum a m carryIn % 256) := by
  rw [← toNat_adcResult, BitVec.ofNat_toNat, BitVec.setWidth_eq]

theorem overflowFlag_eq_decide_ne (a m result : Byte) :
    overflowFlag a m result = decide ((~~~(a ^^^ m) &&& (a ^^^ result) &&& 0x80) ≠ 0) := by
  rw [overflowFlag, Bool.eq_iff_iff, bne_iff_ne, decide_eq_true_iff]

theorem adcFlags_eq (f : Flags) (a m : Byte) :
    adcFlags f a m =
      { f with
        c := decide (255 < adcSum a m f.c)
        z := decide (adcSum a m f.c % 256 = 0)
        n := decide (128 ≤ adcSum a m f.c % 256)
        v := overflowFlag a m (adcResult a m f.c) } := by
  rw [adcFlags, beq_zero_eq_decide_toNat, bit7_eq_decide_le, toNat_adcResult]
  rfl

theorem adcCore_immOperand (m : Byte) (s : State) : adcCore (immOperand m s) = addedState m s := by
  simp only [adcCore, immOperand, addedState, adcFlags_eq, overflowFlag_eq_decide_ne, adcResult_eq_ofNat_mod, adcSum_eq]

/-- Settles O17: each form is the immediate form on its byte, and that form writes `A` and the four flags of the sum only. -/
theorem addResults : Obligations.AddResults := by
  intro s
  refine ⟨?_, ?_, ?_⟩
  · intro imm
    rw [exec_adcImm, adcCore_immOperand]
  · intro zp
    rw [exec_adcZp, zpOperand_eq_immOperand, adcCore_immOperand, zpAddress, toNat_zext16]
    rfl
  · intro base
    rw [exec_adcZpx, zpxOperand_eq_immOperand, adcCore_immOperand, toNat_zpxAddress]
    rfl

end Sys2Proof.Machine
end

section
/-! The stack push and JSR (43_control.md R120 to R124): where a pushed word lies, and what JSR is in terms of one. -/

namespace Sys2Proof.Machine

theorem mem_wf_push {s : State} (hm : s.mem.wf = true) (v : Byte) : (push v s).mem.wf = true :=
  Memory.wf_write_word hm s.sp v

theorem read_push_same {s : State} (hm : s.mem.wf = true) (v : Byte) : (push v s).mem.read s.sp.toNat = v :=
  Memory.read_write_same hm s.sp.toNat v

theorem read_push_other (s : State) (v : Byte) {addr : Nat} (h : addr ≠ s.sp.toNat) :
    (push v s).mem.read addr = s.mem.read addr :=
  Memory.read_write_other s.mem v h

/-- The two pushes of JSR (43_control.md R122): the high byte first, so that the word lies little-endian. -/
def pushWord (w : Word) (s : State) : State := push (loByte w) (push (hiByte w) s)

theorem exec_jsrAbs (target : Word) (s : State) :
    exec (.jsrAbs target) s = .next { pushWord (s.pc - 1) s with pc := target } := rfl

theorem pushWord_sp (w : Word) (s : State) : (pushWord w s).sp = s.sp - 2 := by
  rw [pushWord, push_sp, push_sp]
  bv_omega

/-- `SP` as a number goes down modulo 2^16, also from 0x0000 and 0x0001. -/
theorem toNat_pushWord_sp (w : Word) (s : State) :
    (pushWord w s).sp.toNat = (s.sp.toNat + 65534) % 65536 := by
  rw [pushWord_sp]
  bv_omega

theorem read_pushWord_low {s : State} (hm : s.mem.wf = true) (w : Word) :
    (pushWord w s).mem.read (s.sp - 1).toNat = loByte w :=
  read_push_same (mem_wf_push hm (hiByte w)) (loByte w)

/-- The second push does not reach the byte of the first, for their addresses differ also where `SP` wraps. -/
theorem read_pushWord_high {s : State} (hm : s.mem.wf = true) (w : Word) :
    (pushWord w s).mem.read s.sp.toNat = hiByte w := by
  have hne : s.sp.toNat ≠ (push (hiByte w) s).sp.toNat := by
    rw [push_sp]
    bv_omega
  rw [pushWord, read_push_other _ _ hne, read_push_same hm]

/-- A pushed word is read back above the `SP` the pushes leave. -/
theorem hiLo_read_pushWord {s : State} (hm : s.mem.wf = true) (w : Word) :
    hiLo ((pushWord w s).mem.read ((pushWord w s).sp + 2).toNat)
      ((pushWord w s).mem.read ((pushWord w s).sp + 1).toNat) = w := by
  have hhigh : s.sp - 2 + 2 = s.sp := by bv_omega
  have hlow : s.sp - 2 + 1 = s.sp - 1 := by bv_omega
  rw [pushWord_sp, hhigh, hlow, read_pushWord_high hm, read_pushWord_low hm, hiLo_hiByte_loByte]

/-- An instruction is fetched by fetching its bytes and nothing else. -/
theorem eq_fetchedState_of_fetchInstr {s u : State} {i : Instr} (h : fetchInstr s = .instr i u) :
    u = fetchedState (instrLength i) s := by
  rcases fetchInstr_cases s with ⟨j, _, -, hf⟩ | ⟨-, -, hf⟩
  · cases h.symm.trans hf
    rfl
  · cases h.symm.trans hf

theorem instrStep_of_fetchInstr {s u : State} {i : Instr} (h : fetchInstr s = .instr i u) : instrStep s = exec i u := by
  rw [instrStep, h]

/-- Settles O24: `PC` is 3 on after the fetch, and the word JSR pushes is read back above `SP`. -/
theorem jsrPushesAddressOfItsLastByte : Obligations.JsrPushesAddressOfItsLastByte := by
  intro s u target hm hfetch
  have hu : u = fetchedState 3 s := eq_fetchedState_of_fetchInstr hfetch
  have hret : u.pc - 1 = s.pc + 2 := by
    rw [hu, fetchedState_pc]
    bv_omega
  have hum : u.mem.wf = true := by
    rw [hu, fetchedState_mem]
    exact hm
  refine ⟨hret, _, (instrStep_of_fetchInstr hfetch).trans (exec_jsrAbs target u), ?_⟩
  rw [← hret]
  exact hiLo_read_pushWord hum (u.pc - 1)

/-- Settles O25: `SP` goes down by 2 as a word, and the pushed bytes lie at the old `SP` and the word before it. -/
theorem stackPointerWraps : Obligations.StackPointerWraps := by
  intro s target hm
  have hsp := pushWord_sp (s.pc - 1) s
  have hhigh := read_pushWord_high hm (s.pc - 1)
  have hlow := read_pushWord_low hm (s.pc - 1)
  refine ⟨_, exec_jsrAbs target s, toNat_pushWord_sp (s.pc - 1) s, ?_, ?_, ?_⟩
  · intro h
    rw [h] at hsp hhigh hlow
    exact ⟨hsp, hhigh, hlow⟩
  · intro h
    rw [h] at hsp hhigh
    exact ⟨hsp, hhigh⟩
  · intro h
    rw [h] at hsp hlow
    exact ⟨hsp, hlow⟩

end Sys2Proof.Machine
end

section
/-! The host has no move during a call (60_exceptions.md R147): an operation is refused, and a refused one changes nothing. -/

namespace Sys2Proof.Machine

theorem portDo_of_call {s : State} {c : Int} (h : s.cycles = some c) (op : PortOp) :
    portDo op s = .refused .hostDuringExecute := by
  simp [portDo, h]

theorem afterPort_of_refused {op : PortOp} {s : State} {r : Refusal} (h : portDo op s = .refused r) :
    afterPort op s = s := by
  rw [afterPort, h]

/-- Settles O44: the refusal of a running call comes before any operation is looked at. -/
theorem noHostMoveDuringCall : Obligations.NoHostMoveDuringCall := by
  intro op s c h
  have hrefused := portDo_of_call h op
  exact ⟨hrefused, afterPort_of_refused hrefused⟩

end Sys2Proof.Machine
end

section
/-! Decoding and encoding (30_encoding.md sections 1 to 5) read against each other, for every list of bytes. -/

namespace Sys2Proof

theorem decode_encode_append (i : Instr) (rest : List Byte) : decode (encode i ++ rest) = .ok (i, rest) := by
  cases i <;> simp [encode, decode]

/-- Settles O2: the encoder writes the opcode's own byte, which the decoder recognises. -/
theorem decodeOfEncode : Obligations.DecodeOfEncode := decode_encode_append

theorem eq_encode_append_of_decode {bs rest : List Byte} {i : Instr} (h : decode bs = .ok (i, rest)) :
    bs = encode i ++ rest := by
  cases bs with
  | nil => cases h
  | cons op tail =>
    simp only [decode] at h
    split at h <;> cases h
    all_goals
      rename_i hop
      simp [encode, opcodeValue_of_opcodeOfByte hop]

/-- Settles O3: a recognised byte is the opcode's own, and the operand bytes are kept whole. -/
theorem encodeOfDecode : Obligations.EncodeOfDecode := fun _ _ _ => eq_encode_append_of_decode

theorem encode_eq_cons (i : Instr) : ∃ operands, encode i = opcodeValue (opcodeOf i) :: operands := by
  cases i <;> exact ⟨_, rfl⟩

/-- The first byte of what decodes is the opcode of what it decodes to. -/
theorem opcodeOfByte_of_decode_ok {op : Byte} {bs rest : List Byte} {i : Instr}
    (h : decode (op :: bs) = .ok (i, rest)) : opcodeOfByte op = some (opcodeOf i) := by
  obtain ⟨operands, hi⟩ := encode_eq_cons i
  have hcons : op :: bs = opcodeValue (opcodeOf i) :: operands ++ rest := hi ▸ eq_encode_append_of_decode h
  rw [(List.cons.inj hcons).1, opcodeOfByte_opcodeValue]

theorem wellFormedBytes_encode (i : Instr) : wellFormedBytes (encode i) = true := by
  cases i <;> rfl

theorem exists_decode_of_wellFormedBytes {bs : List Byte} (h : wellFormedBytes bs = true) :
    ∃ i, decode bs = .ok (i, []) := by
  cases bs with
  | nil => cases h
  | cons op operands =>
    cases ho : opcodeOfByte op with
    | none => simp [wellFormedBytes, ho] at h
    | some o =>
      have hlength : operands.length = operandCount o := by simpa [wellFormedBytes, ho] using h
      cases o with
      | jsrAbs =>
        obtain ⟨lo, hi, rfl⟩ := List.length_eq_two.1 hlength
        simp [decode, ho]
      | _ =>
        obtain ⟨operand, rfl⟩ := List.length_eq_one_iff.1 hlength
        simp [decode, ho]

/-- Settles O4: enough operand bytes decode, and what decodes with nothing left over is an encoding. -/
theorem wholeInstructionBytesDecode : Obligations.WholeInstructionBytesDecode := by
  refine fun bs => ⟨exists_decode_of_wellFormedBytes, ?_⟩
  rintro ⟨i, hi⟩
  rw [eq_encode_append_of_decode hi, List.append_nil]
  exact wellFormedBytes_encode i

/-- Settles O1: each word is computed by the decoder. -/
theorem mapWordsDecode : Obligations.MapWordsDecode := by
  unfold Obligations.MapWordsDecode
  decide

theorem opcodeValue_mem_opcodeBytes (o : Opcode) : opcodeValue o ∈ Machine.opcodeBytes := by
  cases o <;> decide

/-- The invalid opcodes (30_encoding.md R72, R77) are the bytes outside the list of seven. -/
theorem opcodeOfByte_eq_none_iff (op : Byte) : opcodeOfByte op = none ↔ op ∉ Machine.opcodeBytes := by
  constructor
  · intro h hmem
    have hall : ∀ b ∈ Machine.opcodeBytes, opcodeOfByte b ≠ none := by decide
    exact hall op hmem h
  · intro h
    cases ho : opcodeOfByte op with
    | none => rfl
    | some o => exact absurd (opcodeValue_of_opcodeOfByte ho ▸ opcodeValue_mem_opcodeBytes o) h

end Sys2Proof
end

section
/-! Bytes placed in memory (30_encoding.md R76): where they are read back, and that an encoded instruction is fetched where it
was placed. -/

namespace Sys2Proof.Machine

/-- Placing bytes changes memory only. -/
theorem placeBytes_eq_withMemory (addr : Word) (bs : List Byte) (s : State) :
    placeBytes addr bs s = withMemory (placeBytes addr bs s).mem s := by
  induction bs generalizing addr s with
  | nil => rfl
  | cons v rest ih =>
    rw [placeBytes, ih]
    rfl

theorem placeBytes_pc (addr : Word) (bs : List Byte) (s : State) : (placeBytes addr bs s).pc = s.pc := by
  rw [placeBytes_eq_withMemory]
  rfl

theorem placeBytes_cycles (addr : Word) (bs : List Byte) (s : State) : (placeBytes addr bs s).cycles = s.cycles := by
  rw [placeBytes_eq_withMemory]
  rfl

theorem read_placeBytes_other {addr other : Word} (bs : List Byte) (s : State)
    (h : ∀ k, k < bs.length → other ≠ addr + BitVec.ofNat 16 k) :
    (placeBytes addr bs s).mem.read other.toNat = s.mem.read other.toNat := by
  induction bs generalizing addr s with
  | nil => rfl
  | cons v rest ih =>
    have hne : other.toNat ≠ addr.toNat := by
      have h0 := h 0 (Nat.succ_pos _)
      bv_omega
    rw [placeBytes, ih, Memory.read_write_other _ _ hne]
    intro k hk heq
    refine h (k + 1) (Nat.succ_lt_succ hk) ?_
    rw [heq]
    bv_omega

/-- The bytes of a list no longer than the address space are read back, across the top of memory too. -/
theorem read_placeBytes {bs : List Byte} (hlength : bs.length ≤ memorySize) (addr : Word) {s : State}
    (hm : s.mem.wf = true) {k : Nat} (hk : k < bs.length) :
    (placeBytes addr bs s).mem.read (addr + BitVec.ofNat 16 k).toNat = bs[k] := by
  induction bs generalizing addr s k with
  | nil => cases hk
  | cons v rest ih =>
    rw [List.length_cons] at hlength hk
    rw [memorySize] at hlength
    have hm' : (s.mem.write addr.toNat v).wf = true := Memory.wf_write_word hm addr v
    rw [placeBytes]
    cases k with
    | zero =>
      rw [BitVec.add_zero, read_placeBytes_other, Memory.read_write_same hm, List.getElem_cons_zero]
      intro j hj
      bv_omega
    | succ k =>
      have haddr : addr + BitVec.ofNat 16 (k + 1) = addr + 1 + BitVec.ofNat 16 k := by bv_omega
      rw [haddr]
      exact ih (Nat.le_of_succ_le hlength) (addr + 1) hm' (Nat.lt_of_succ_lt_succ hk)

theorem getElem_bytesAtPc (s : State) {k : Nat} (hk : k < (bytesAtPc s).length) :
    (bytesAtPc s)[k] = s.mem.read (s.pc + BitVec.ofNat 16 k).toNat := by
  have hk3 : k < 3 := hk
  interval_cases k
  · rw [BitVec.add_zero]
    rfl
  · rfl
  · rfl

/-- Bytes placed at `PC`, no more than the longest instruction has, are the first ones there. -/
theorem prefix_bytesAtPc_placeBytes {bs : List Byte} (hlength : bs.length ≤ 3) {s : State} (hm : s.mem.wf = true) :
    bs <+: bytesAtPc (placeBytes s.pc bs s) := by
  refine List.prefix_iff_getElem.2 ⟨hlength, fun k hk => ?_⟩
  have hsize : bs.length ≤ memorySize := hlength.trans (by decide)
  rw [getElem_bytesAtPc, placeBytes_pc, read_placeBytes hsize s.pc hm hk]

theorem length_encode_le (i : Instr) : (encode i).length ≤ 3 := by
  cases i <;> simp [encode]

/-- Settles O5: the bytes placed at `PC` are read back, decode as the instruction, and are fetched one by one. -/
theorem placedInstructionIsFetched : Obligations.PlacedInstructionIsFetched := by
  intro i s hm
  obtain ⟨rest, hbytes⟩ := prefix_bytesAtPc_placeBytes (length_encode_le i) hm
  have hdecode : decode (bytesAtPc (placeBytes s.pc (encode i) s)) = .ok (i, rest) := by
    rw [← hbytes, decode_encode_append]
  rw [fetchInstr_of_decode_ok hdecode, fetchedState, charge, placeBytes_pc, placeBytes_cycles]

end Sys2Proof.Machine
end

section
/-! What the handler of an instruction does, said once for each family: LDA and ADC on the byte of their operand form, JSR by
the push of a word (40_engine.md R93, R94). -/

namespace Sys2Proof.Machine

/-- The byte an LDA or ADC works on (30_encoding.md R67 to R69). -/
def dataByte : Instr → State → Byte
  | .ldaImm imm, _ => imm
  | .ldaZp zp, s => s.mem.read zp.toNat
  | .ldaZpx base, s => s.mem.read ((base.toNat + s.x.toNat) % 256)
  | .adcImm imm, _ => imm
  | .adcZp zp, s => s.mem.read zp.toNat
  | .adcZpx base, s => s.mem.read ((base.toNat + s.x.toNat) % 256)
  | .jsrAbs _, _ => 0x00

/-- The cycles a handler charges beyond the fetch of the instruction's bytes. -/
def handlerCycles : Instr → Nat
  | .ldaImm _ => 0
  | .ldaZp _ => 1
  | .ldaZpx _ => 2
  | .adcImm _ => 0
  | .adcZp _ => 1
  | .adcZpx _ => 2
  | .jsrAbs _ => 4

/-- The charges add up to the table of 40_engine.md R94. -/
theorem instrLength_add_handlerCycles (i : Instr) : instrLength i + handlerCycles i = cycleTotal i := by
  cases i <;> rfl

theorem exec_of_isLoad {i : Instr} (hi : isLoad i = true) (s : State) :
    exec i s = .next (loadedState (dataByte i s) (charge (handlerCycles i) s)) := by
  obtain ⟨himm, hzp, hzpx⟩ := loadResults s
  cases i with
  | ldaImm imm => rw [himm, handlerCycles, charge_zero, dataByte]
  | ldaZp zp => exact hzp zp
  | ldaZpx base => exact hzpx base
  | _ => cases hi

theorem exec_of_isAdd {i : Instr} (hi : isAdd i = true) (s : State) :
    exec i s = .next (addedState (dataByte i s) (charge (handlerCycles i) s)) := by
  obtain ⟨himm, hzp, hzpx⟩ := addResults s
  cases i with
  | adcImm imm => rw [himm, handlerCycles, charge_zero, dataByte]
  | adcZp zp => exact hzp zp
  | adcZpx base => exact hzpx base
  | _ => cases hi

theorem instr_cases (i : Instr) : isLoad i = true ∨ isAdd i = true ∨ ∃ target, i = .jsrAbs target := by
  cases i <;> simp [isLoad, isAdd]

theorem opcodeOf_ne_jsrAbs {i : Instr} (hi : isLoad i = true ∨ isAdd i = true) : opcodeOf i ≠ .jsrAbs := by
  cases i <;> simp_all [isLoad, isAdd, opcodeOf]

theorem instrLength_of_load_or_add {i : Instr} (hi : isLoad i = true ∨ isAdd i = true) : instrLength i = 2 := by
  cases i <;> simp_all [isLoad, isAdd, instrLength, opcodeOf, operandCount]

/-- The frame of LDA and ADC: `A`, `C`, `Z`, `N`, `V` and `cycles` are all that they write. -/
theorem exec_of_load_or_add {i : Instr} (hi : isLoad i = true ∨ isAdd i = true) (s : State) :
    ∃ a c z v n, exec i s =
      .next { charge (handlerCycles i) s with a := a, flags := { s.flags with c := c, z := z, v := v, n := n } } := by
  rcases hi with hl | ha
  · exact ⟨_, s.flags.c, _, s.flags.v, _, exec_of_isLoad hl s⟩
  · exact ⟨_, _, _, _, _, exec_of_isAdd ha s⟩

/-- Settles O20: LDA and ADC write `A`, their flags and `cycles` only, and LDA's flags are `Z` and `N`. -/
theorem loadAndAddFrame : Obligations.LoadAndAddFrame := by
  intro i s t hi ht
  have hcv : isLoad i = true → t.flags.c = s.flags.c ∧ t.flags.v = s.flags.v := by
    intro hl
    cases (exec_of_isLoad hl s).symm.trans ht
    exact ⟨rfl, rfl⟩
  obtain ⟨a, c, z, v, n, hexec⟩ := exec_of_load_or_add hi s
  cases hexec.symm.trans ht
  exact ⟨rfl, rfl, rfl, rfl, rfl, rfl, rfl, rfl, rfl, rfl, hcv, fun _ => rfl⟩

theorem dataByte_withMemory (i : Instr) {s : State} {m : Memory} (h : ∀ addr, addr < 256 → m.read addr = s.mem.read addr) :
    dataByte i (withMemory m s) = dataByte i s := by
  cases i with
  | ldaZp zp => exact h _ zp.isLt
  | ldaZpx base => exact h _ (Nat.mod_lt _ (by decide))
  | adcZp zp => exact h _ zp.isLt
  | adcZpx base => exact h _ (Nat.mod_lt _ (by decide))
  | _ => rfl

/-- Settles O21: the byte an LDA or ADC works on is an immediate or in the zero page, and nothing else reads memory. -/
theorem dataReadsStayInZeroPage : Obligations.DataReadsStayInZeroPage := by
  intro i s m hi h
  rcases hi with hl | ha
  · rw [exec_of_isLoad hl, exec_of_isLoad hl, dataByte_withMemory i h]
    rfl
  · rw [exec_of_isAdd ha, exec_of_isAdd ha, dataByte_withMemory i h]
    rfl

/-- A pushed byte is charged twice: the write and the decrement (43_control.md R121; D4). -/
theorem pushWord_cycles (w : Word) (s : State) : (pushWord w s).cycles = s.cycles.map (fun c => c - 4) := by
  cases hc : s.cycles with
  | none => simp [pushWord, hc]
  | some c => simp [pushWord, hc]; omega

theorem read_pushWord_other (w : Word) {s : State} {addr : Nat} (hhigh : addr ≠ s.sp.toNat)
    (hlow : addr ≠ (s.sp - 1).toNat) : (pushWord w s).mem.read addr = s.mem.read addr := by
  rw [pushWord, read_push_other _ _ hlow, read_push_other _ _ hhigh]

theorem mem_wf_pushWord {s : State} (hm : s.mem.wf = true) (w : Word) : (pushWord w s).mem.wf = true :=
  mem_wf_push (mem_wf_push hm (hiByte w)) (loByte w)

/-- `PC` takes the target of a jump (43_control.md R122). -/
def jump (target : Word) (s : State) : State := { s with pc := target }

@[simp] theorem jump_pc (target : Word) (s : State) : (jump target s).pc = target := rfl
@[simp] theorem jump_sp (target : Word) (s : State) : (jump target s).sp = s.sp := rfl
@[simp] theorem jump_cycles (target : Word) (s : State) : (jump target s).cycles = s.cycles := rfl
@[simp] theorem jump_mem (target : Word) (s : State) : (jump target s).mem = s.mem := rfl

/-- JSR is the push of `PC` - 1 and the jump. -/
theorem exec_jsrAbs_eq_jump (target : Word) (s : State) :
    exec (.jsrAbs target) s = .next (jump target (pushWord (s.pc - 1) s)) := rfl

/-- Settles O22: the two bytes of `PC` - 1 are pushed, and the jump keeps them. -/
theorem jsrResult : Obligations.JsrResult := by
  intro s target hm
  refine ⟨_, exec_jsrAbs_eq_jump target s, jump_pc _ _, ?_, ?_, ?_, ?_⟩
  · rw [jump_sp, pushWord_sp]
  · rw [jump_mem, read_pushWord_high hm]
  · rw [jump_mem, read_pushWord_low hm]
  · rw [jump_cycles, pushWord_cycles]

/-- Settles O23: a push writes one byte, `SP` and `cycles`, a jump `PC`. -/
theorem jsrFrame : Obligations.JsrFrame := by
  intro s t target ht
  cases (exec_jsrAbs_eq_jump target s).symm.trans ht
  refine ⟨rfl, rfl, rfl, rfl, rfl, rfl, fun addr hhigh hlow => ?_⟩
  rw [jump_mem, read_pushWord_other _ hhigh hlow]

/-- Settles O27: the fetches after the jump read the two bytes of the pushed word. -/
theorem pushIsSeenByNextFetch : Obligations.PushIsSeenByNextFetch := by
  intro s hm
  refine ⟨_, exec_jsrAbs_eq_jump s.sp s, ?_, ?_⟩
  · rw [fetchByte_value, jump_mem, jump_pc, read_pushWord_high hm]
  · change (fetchByte (jump (s.sp - 1) (jump s.sp (pushWord (s.pc - 1) s)))).1 = loByte (s.pc - 1)
    rw [fetchByte_value, jump_mem, jump_mem, jump_pc, read_pushWord_low hm]

end Sys2Proof.Machine
end

section
/-! Overflow and carry as ranges (42_arithmetic.md sections 1 and 3). -/

namespace Sys2Proof.Machine

theorem and_0x80_ne_zero_iff (v : Byte) : v &&& 0x80 ≠ 0 ↔ bit7 v = true := by
  have htwo : (0x80 : Byte) = BitVec.twoPow 8 7 := rfl
  rw [htwo, BitVec.and_twoPow, bit7]
  cases v.getLsbD 7 <;> decide

/-- The formula of 42_arithmetic.md R111: the operands have one sign and the result the other. -/
theorem overflowFlag_iff (a m result : Byte) :
    overflowFlag a m result = true ↔
      (128 ≤ a.toNat ↔ 128 ≤ m.toNat) ∧ ¬(128 ≤ a.toNat ↔ 128 ≤ result.toNat) := by
  have hbit (v : Byte) : bit7 v = true ↔ 128 ≤ v.toNat := by
    rw [bit7_eq_decide_le, decide_eq_true_iff]
  have hsplit : bit7 (~~~(a ^^^ m) &&& (a ^^^ result)) = true ↔
      (bit7 a = true ↔ bit7 m = true) ∧ ¬(bit7 a = true ↔ bit7 result = true) := by
    simp only [bit7, BitVec.getLsbD_and, BitVec.getLsbD_not, BitVec.getLsbD_xor]
    cases a.getLsbD 7 <;> cases m.getLsbD 7 <;> cases result.getLsbD 7 <;> decide
  rw [overflowFlag, bne_iff_ne, and_0x80_ne_zero_iff, hsplit, hbit, hbit, hbit]

/-- `sgn(v)` (42_arithmetic.md R111), the two halves of its range apart. -/
theorem signedValue_cases (v : Byte) :
    (v.toNat < 128 ∧ signedValue v = v.toNat) ∨ (128 ≤ v.toNat ∧ v.toNat < 256 ∧ signedValue v = v.toNat - 256) := by
  have hlt := v.isLt
  rw [signedValue]
  split <;> omega

/-- Settles O18: the sum leaves the signed range exactly where both operands have the sign that the result has not. -/
theorem overflowIsSignedRange : Obligations.OverflowIsSignedRange := by
  intro s imm
  have hresult := toNat_adcResult s.a imm s.flags.c
  have hv := overflowFlag_iff s.a imm (adcResult s.a imm s.flags.c)
  have hc : adcCarry s.a imm s.flags.c = true ↔ 255 < adcSum s.a imm s.flags.c := decide_eq_true_iff
  have hcarry : (if s.flags.c then (1 : Nat) else 0) ≤ 1 := by split <;> decide
  have hcast : (if s.flags.c then (1 : Int) else 0) = ((if s.flags.c then 1 else 0 : Nat) : Int) := by split <;> rfl
  have hsa := signedValue_cases s.a
  have hsimm := signedValue_cases imm
  have hsresult := signedValue_cases (adcResult s.a imm s.flags.c)
  rw [adcSum_eq] at hresult hc
  refine ⟨_, exec_adcImm imm s, ?_⟩
  simp only [adcCore_flags, adcCore_a, immOperand_value, immOperand_state, adcFlags, hcast, Bool.eq_false_iff, ne_eq, hv, hc]
  generalize (if s.flags.c then (1 : Nat) else 0) = carryIn at *
  refine ⟨?_, ?_, ?_⟩ <;> omega

end Sys2Proof.Machine
end

section
/-! A step with budget left, in terms of the bytes at `PC` (40_engine.md R93), and everything a step can lead to. -/

namespace Sys2Proof.Machine

theorem fetchedState_of_call {s : State} {c : Int} (h : s.cycles = some c) (n : Nat) :
    fetchedState n s = { s with pc := s.pc + BitVec.ofNat 16 n, cycles := some (c - n) } := by
  simp [fetchedState, charge, h]

theorem step_of_decode_ok {s : State} {c : Int} (h : s.cycles = some c) (hc : 0 < c) {i : Instr} {rest : List Byte}
    (hd : decode (bytesAtPc s) = .ok (i, rest)) : step s = exec i (fetchedState (instrLength i) s) := by
  rw [step_of_budget h hc, instrStep_of_decode_ok hd]

/-- The state after an invalid opcode (60_exceptions.md R130). -/
theorem step_of_decode_error {s : State} {c : Int} (h : s.cycles = some c) (hc : 0 < c) {e : DecodeError}
    (hd : decode (bytesAtPc s) = .error e) :
    step s = .next { s with
      pc := s.pc + 1
      cycles := some (c - 1)
      reports := s.reports ++ [{ addr := s.pc, byte := s.mem.read s.pc.toNat }] } := by
  rw [step_of_budget h hc, instrStep_of_decode_error hd, fetchedState_of_call h]
  rfl

/-- Settles O7: a step with budget left is `Step()`, which takes one of two branches. -/
theorem stepRunsDecodedInstruction : Obligations.StepRunsDecodedInstruction := by
  refine fun s c h hc => ⟨fun i rest hd => ?_, fun e hd => step_of_decode_error h hc hd⟩
  rw [step_of_decode_ok h hc hd, fetchedState_of_call h]

theorem beginCall_of_admitted {s : State} (h : s.cycles = none) (hp : s.powerUp = []) (budget : BitVec 32) :
    beginCall budget s = .next { s with cycles := some (budget.toNat : Int) } := by
  simp [beginCall, h, hp]

/-- Settles O8: the three branches of a pass of the loop, and the start of a call. -/
theorem budgetTestedAtBoundary : Obligations.BudgetTestedAtBoundary := fun _ budget =>
  ⟨fun _ => step_of_budget, fun _ => step_of_no_budget, step_of_no_call, fun h hp => beginCall_of_admitted h hp budget⟩

/-- Settles O9: every arm of `exec` and every branch of the loop answers a next state. -/
theorem stepAlwaysAnswers : Obligations.StepAlwaysAnswers := fun s => ⟨step_next s, fun i => exec_next i s⟩

theorem exec_cycles {i : Instr} {s t : State} (h : exec i s = .next t) :
    t.cycles = s.cycles.map (fun c => c - (handlerCycles i : Int)) := by
  rcases instr_cases i with hl | ha | ⟨target, rfl⟩
  · cases (exec_of_isLoad hl s).symm.trans h
    rfl
  · cases (exec_of_isAdd ha s).symm.trans h
    rfl
  · cases (exec_jsrAbs_eq_jump target s).symm.trans h
    rw [jump_cycles, pushWord_cycles]
    rfl

/-- Settles O10: the fetch charges a cycle for each byte, and the handler the rest of the total. -/
theorem stepChargesTotal : Obligations.StepChargesTotal := by
  intro s c h hc
  obtain ⟨t, ht⟩ := step_next s
  refine ⟨t, ht, fun i rest hd => ?_, fun e hd => ?_⟩
  · rw [step_of_decode_ok h hc hd, fetchedState_of_call h] at ht
    rw [exec_cycles ht, ← instrLength_add_handlerCycles, Nat.cast_add, ← sub_sub]
    rfl
  · cases (step_of_decode_error h hc hd).symm.trans ht
    rfl

theorem isLoad_or_isAdd_of_opcodeOf_ne {i : Instr} (h : opcodeOf i ≠ .jsrAbs) : isLoad i = true ∨ isAdd i = true := by
  rcases instr_cases i with hl | ha | ⟨target, rfl⟩
  · exact .inl hl
  · exact .inr ha
  · exact absurd rfl h

/-- Settles O11: LDA and ADC leave `PC` past their 2 bytes, JSR writes it. -/
theorem pcAfterStep : Obligations.PcAfterStep := by
  intro s c h hc
  obtain ⟨t, ht⟩ := step_next s
  refine ⟨t, ht, fun target rest hd => ?_, fun i rest hd hne => ?_, fun e hd => ?_⟩
  · cases (step_of_decode_ok h hc hd).symm.trans ht
    rfl
  · have hi := isLoad_or_isAdd_of_opcodeOf_ne hne
    rw [step_of_decode_ok h hc hd] at ht
    obtain ⟨hpc, -⟩ := loadAndAddFrame i _ t hi ht
    rw [hpc, fetchedState_pc, instrLength_of_load_or_add hi]
    exact BitVec.toNat_add s.pc 2
  · cases (step_of_decode_error h hc hd).symm.trans ht
    exact BitVec.toNat_add s.pc 1

theorem decode_bytesAtPc_of_invalid {s : State} (h : opcodeOfByte (s.mem.read s.pc.toNat) = none) :
    decode (bytesAtPc s) = .error (.invalidOpcode (s.mem.read s.pc.toNat)) := by
  simp [bytesAtPc, decode, h]

/-- Settles O13: a byte outside the list of seven does not decode. -/
theorem invalidOpcodeIsReportedAndSkipped : Obligations.InvalidOpcodeIsReportedAndSkipped := fun _ _ h hc hbyte =>
  step_of_decode_error h hc (decode_bytesAtPc_of_invalid ((opcodeOfByte_eq_none_iff _).2 hbyte))

theorem dataByte_fetchedState (i : Instr) (n : Nat) (s : State) : dataByte i (fetchedState n s) = dataByte i s := by
  cases i <;> rfl

/-- The bytes of an instruction fetched and its handler's cycles charged: together its total. -/
theorem charge_fetchedState {s : State} {c : Int} (h : s.cycles = some c) (i : Instr) :
    charge (handlerCycles i) (fetchedState (instrLength i) s) =
      { s with pc := s.pc + BitVec.ofNat 16 (instrLength i), cycles := some (c - (cycleTotal i : Int)) } := by
  rw [fetchedState, charge_charge, instrLength_add_handlerCycles, charge, h]
  rfl

/-- A step that runs an LDA. -/
theorem step_of_isLoad {s : State} {c : Int} (h : s.cycles = some c) (hc : 0 < c) {i : Instr} {rest : List Byte}
    (hd : decode (bytesAtPc s) = .ok (i, rest)) (hi : isLoad i = true) :
    step s = .next (loadedState (dataByte i s) { s with pc := s.pc + 2, cycles := some (c - (cycleTotal i : Int)) }) := by
  rw [step_of_decode_ok h hc hd, exec_of_isLoad hi, dataByte_fetchedState, charge_fetchedState h,
    instrLength_of_load_or_add (.inl hi)]
  rfl

/-- A step that runs an ADC. -/
theorem step_of_isAdd {s : State} {c : Int} (h : s.cycles = some c) (hc : 0 < c) {i : Instr} {rest : List Byte}
    (hd : decode (bytesAtPc s) = .ok (i, rest)) (hi : isAdd i = true) :
    step s = .next (addedState (dataByte i s) { s with pc := s.pc + 2, cycles := some (c - (cycleTotal i : Int)) }) := by
  rw [step_of_decode_ok h hc hd, exec_of_isAdd hi, dataByte_fetchedState, charge_fetchedState h,
    instrLength_of_load_or_add (.inr hi)]
  rfl

/-- A step that runs a JSR: the word pushed is the address of its last byte (43_control.md R120). -/
theorem step_of_jsrAbs {s : State} {c : Int} (h : s.cycles = some c) (hc : 0 < c) {target : Word} {rest : List Byte}
    (hd : decode (bytesAtPc s) = .ok (.jsrAbs target, rest)) :
    step s = .next (jump target (pushWord (s.pc + 2) (fetchedState 3 s))) := by
  have hret : (fetchedState 3 s).pc - 1 = s.pc + 2 := by
    rw [fetchedState_pc]
    bv_omega
  rw [step_of_decode_ok h hc hd, exec_jsrAbs_eq_jump, ← hret]
  rfl

/-- The bytes of a 2-byte instruction at `PC` decode as it. -/
theorem decode_bytesAtPc_of_encode {s : State} {i : Instr}
    (h : encode i = [s.mem.read s.pc.toNat, s.mem.read (s.pc + 1).toNat]) :
    decode (bytesAtPc s) = .ok (i, [s.mem.read (s.pc + 2).toNat]) := by
  rw [← decode_encode_append, h]
  rfl

/-- Settles O16: each of the three bytes decodes as its form of LDA. -/
theorem loadStepFromBytes : Obligations.LoadStepFromBytes := by
  intro s c h hc
  have hstep {i : Instr} (hbytes : encode i = [s.mem.read s.pc.toNat, s.mem.read (s.pc + 1).toNat]) :=
    step_of_isLoad h hc (decode_bytesAtPc_of_encode hbytes)
  refine ⟨fun hop => ?_, fun hop => ?_, fun hop => ?_⟩ <;> rw [hop] at hstep
  · exact hstep (i := .ldaImm _) rfl rfl
  · exact hstep (i := .ldaZp _) rfl rfl
  · exact hstep (i := .ldaZpx _) rfl rfl

/-- Settles O19: each of the three bytes decodes as its form of ADC. -/
theorem addStepFromBytes : Obligations.AddStepFromBytes := by
  intro s c h hc
  have hstep {i : Instr} (hbytes : encode i = [s.mem.read s.pc.toNat, s.mem.read (s.pc + 1).toNat]) :=
    step_of_isAdd h hc (decode_bytesAtPc_of_encode hbytes)
  refine ⟨fun hop => ?_, fun hop => ?_, fun hop => ?_⟩ <;> rw [hop] at hstep
  · exact hstep (i := .adcImm _) rfl rfl
  · exact hstep (i := .adcZp _) rfl rfl
  · exact hstep (i := .adcZpx _) rfl rfl

/-- A JSR's 3 fetches and 2 pushes charge 7 cycles (40_engine.md R94; D4). -/
theorem cycles_pushWord_fetchedState {s : State} {c : Int} (h : s.cycles = some c) (w : Word) :
    (pushWord w (fetchedState 3 s)).cycles = some (c - 7) := by
  rw [pushWord_cycles, fetchedState_of_call h, Option.map_some, sub_sub]
  rfl

@[simp] theorem fetchedState_sp (n : Nat) (s : State) : (fetchedState n s).sp = s.sp := rfl

/-- A JSR writes memory at `SP` and `SP` - 1 only. -/
theorem read_jump_pushWord_fetchedState {s : State} {target : Word} (w : Word) {addr : Nat} (hhigh : addr ≠ s.sp.toNat)
    (hlow : addr ≠ (s.sp - 1).toNat) :
    (jump target (pushWord w (fetchedState 3 s))).mem.read addr = s.mem.read addr := by
  rw [jump_mem, read_pushWord_other w (s := fetchedState 3 s) hhigh hlow, fetchedState_mem]

/-- Settles O26: the whole step is the fetch of 3 bytes, the push of `PC` + 2 and the jump. -/
theorem jsrStepFromBytes : Obligations.JsrStepFromBytes := by
  intro s c hm h hc hop
  have hd := decode_bytesAtPc_of_jsrAbs (s := s) (hop ▸ opcodeOfByte_opcodeValue .jsrAbs)
  refine ⟨_, step_of_jsrAbs h hc hd, jump_pc _ _, ?_, ?_, ?_, ?_, ?_, rfl, rfl, rfl, rfl, rfl, rfl⟩
  · rw [jump_sp, pushWord_sp, fetchedState_sp]
  · rw [jump_mem]
    exact read_pushWord_high (s := fetchedState 3 s) hm (s.pc + 2)
  · rw [jump_mem]
    exact read_pushWord_low (s := fetchedState 3 s) hm (s.pc + 2)
  · exact fun addr hhigh hlow => read_jump_pushWord_fetchedState (s.pc + 2) hhigh hlow
  · rw [jump_cycles, cycles_pushWord_fetchedState h]

/-- Everything a step can lead to: one constructor for each branch of the loop and of `Step()`, and for each family of
instructions. -/
inductive StepsTo (s : State) : State → Prop where
  | idle (h : s.cycles = none) : StepsTo s s
  | callReturns : StepsTo s (endCall s)
  | load {c : Int} {i : Instr} (h : s.cycles = some c) (hc : 0 < c) (hi : isLoad i = true)
      (hop : opcodeOfByte (s.mem.read s.pc.toNat) = some (opcodeOf i)) :
      StepsTo s (loadedState (dataByte i s) { s with pc := s.pc + 2, cycles := some (c - (cycleTotal i : Int)) })
  | add {c : Int} {i : Instr} (h : s.cycles = some c) (hc : 0 < c) (hi : isAdd i = true)
      (hop : opcodeOfByte (s.mem.read s.pc.toNat) = some (opcodeOf i)) :
      StepsTo s (addedState (dataByte i s) { s with pc := s.pc + 2, cycles := some (c - (cycleTotal i : Int)) })
  | jsr {c : Int} (target : Word) (h : s.cycles = some c) (hc : 0 < c)
      (hop : opcodeOfByte (s.mem.read s.pc.toNat) = some .jsrAbs) :
      StepsTo s (jump target (pushWord (s.pc + 2) (fetchedState 3 s)))
  | invalid {c : Int} (h : s.cycles = some c) (hc : 0 < c) (hop : opcodeOfByte (s.mem.read s.pc.toNat) = none) :
      StepsTo s { s with
        pc := s.pc + 1
        cycles := some (c - 1)
        reports := s.reports ++ [{ addr := s.pc, byte := s.mem.read s.pc.toNat }] }

theorem stepsTo_of_step {s t : State} (ht : step s = .next t) : StepsTo s t := by
  rcases step_cases s with ⟨h, hs⟩ | ⟨_, -, -, hs⟩ | ⟨c, h, hc, -⟩
  · cases hs.symm.trans ht
    exact .idle h
  · cases hs.symm.trans ht
    exact .callReturns
  · rcases fetchInstr_cases s with ⟨i, rest, hd, -⟩ | ⟨hop, hd, -⟩
    · have hop := opcodeOfByte_of_decode_ok hd
      rcases instr_cases i with hl | ha | ⟨target, rfl⟩
      · cases (step_of_isLoad h hc hd hl).symm.trans ht
        exact .load h hc hl hop
      · cases (step_of_isAdd h hc hd ha).symm.trans ht
        exact .add h hc ha hop
      · cases (step_of_jsrAbs h hc hd).symm.trans ht
        exact .jsr target h hc hop
    · cases (step_of_decode_error h hc hd).symm.trans ht
      exact .invalid h hc hop

/-- What no step writes (40_engine.md section 5), and what it may only add to. -/
structure StepFrame (s t : State) : Prop where
  x : t.x = s.x
  y : t.y = s.y
  i : t.flags.i = s.flags.i
  d : t.flags.d = s.flags.d
  b : t.flags.b = s.flags.b
  u : t.flags.u = s.flags.u
  powerUp : t.powerUp = s.powerUp
  reports : ∃ more, t.reports = s.reports ++ more
  mem : ∀ addr, addr ≠ s.sp.toNat → addr ≠ (s.sp - 1).toNat → t.mem.read addr = s.mem.read addr

theorem stepFrame_of_stepsTo {s t : State} (h : StepsTo s t) : StepFrame s t := by
  have hsame : ∃ more, s.reports = s.reports ++ more := ⟨[], (List.append_nil _).symm⟩
  cases h with
  | idle => exact ⟨rfl, rfl, rfl, rfl, rfl, rfl, rfl, hsame, fun _ _ _ => rfl⟩
  | callReturns => exact ⟨rfl, rfl, rfl, rfl, rfl, rfl, rfl, hsame, fun _ _ _ => rfl⟩
  | load => exact ⟨rfl, rfl, rfl, rfl, rfl, rfl, rfl, hsame, fun _ _ _ => rfl⟩
  | add => exact ⟨rfl, rfl, rfl, rfl, rfl, rfl, rfl, hsame, fun _ _ _ => rfl⟩
  | jsr =>
    exact ⟨rfl, rfl, rfl, rfl, rfl, rfl, rfl, hsame, fun _ => read_jump_pushWord_fetchedState (s.pc + 2)⟩
  | invalid => exact ⟨rfl, rfl, rfl, rfl, rfl, rfl, rfl, ⟨_, rfl⟩, fun _ _ _ => rfl⟩

theorem step_of_opcode_ne_jsrAbs {s t : State} (h : StepsTo s t)
    (hop : opcodeOfByte (s.mem.read s.pc.toNat) ≠ some .jsrAbs) : t.sp = s.sp ∧ t.mem = s.mem := by
  cases h with
  | jsr target hs hc hjsr => exact absurd hjsr hop
  | _ => exact ⟨rfl, rfl⟩

/-- Only an LDA or an ADC writes `A` or a flag. -/
theorem step_of_opcode_not_load_or_add {s t : State} (h : StepsTo s t)
    (hop : ∀ i, isLoad i = true ∨ isAdd i = true → opcodeOfByte (s.mem.read s.pc.toNat) ≠ some (opcodeOf i)) :
    t.a = s.a ∧ t.flags = s.flags := by
  cases h with
  | load hs hc hi hload => exact absurd hload (hop _ (.inl hi))
  | add hs hc hi hadd => exact absurd hadd (hop _ (.inr hi))
  | _ => exact ⟨rfl, rfl⟩

/-- Settles O12: the frame every step has, and which opcodes write `SP` and memory, or `A` and the flags. -/
theorem stepWritesOnlyItsOwn : Obligations.StepWritesOnlyItsOwn := by
  intro s t ht
  have h := stepsTo_of_step ht
  have frame := stepFrame_of_stepsTo h
  refine ⟨frame.x, frame.y, frame.i, frame.d, frame.b, frame.u, frame.powerUp, frame.reports, frame.mem,
    step_of_opcode_ne_jsrAbs h, fun hjsr => ?_, fun hnone => ?_⟩
  · refine step_of_opcode_not_load_or_add h fun i hi heq => opcodeOf_ne_jsrAbs hi ?_
    exact (Option.some.inj (hjsr.symm.trans heq)).symm
  · exact step_of_opcode_not_load_or_add h fun i _ heq => nomatch hnone.symm.trans heq

end Sys2Proof.Machine
end

section
/-! What no instruction reads: `Z`, `V` and `N` (10_state.md section 2), and the earlier records of the report stream (R36). -/

namespace Sys2Proof.Machine

theorem dataByte_withResultFlags (i : Instr) (z v n : Bool) (s : State) :
    dataByte i (withResultFlags z v n s) = dataByte i s := by
  cases i <;> rfl

/-- ADC writes all three. -/
theorem exec_withResultFlags_of_isAdd {i : Instr} (hi : isAdd i = true) (z v n : Bool) (s : State) :
    exec i (withResultFlags z v n s) = exec i s := by
  rw [exec_of_isAdd hi, exec_of_isAdd hi, dataByte_withResultFlags]
  rfl

theorem clearResultFlags_exec_withResultFlags (i : Instr) (z v n : Bool) (s : State) :
    mapNext (withResultFlags false false false) (exec i (withResultFlags z v n s)) =
      mapNext (withResultFlags false false false) (exec i s) := by
  rcases instr_cases i with hl | ha | ⟨target, rfl⟩
  · rw [exec_of_isLoad hl, exec_of_isLoad hl, dataByte_withResultFlags]
    rfl
  · rw [exec_withResultFlags_of_isAdd ha]
  · rfl

/-- Settles O29: both states take the same branch, and no branch looks at the three flags. -/
theorem resultFlagsAreNotRead : Obligations.ResultFlagsAreNotRead := by
  refine fun s z v n => ⟨?_, fun i hi => exec_withResultFlags_of_isAdd hi z v n s⟩
  have hbranch := step_cases_of_same_fetch (s := s) (t := withResultFlags z v n s) rfl rfl rfl
  obtain ⟨hs, ht⟩ | ⟨hs, ht⟩ | ⟨i, hs, ht⟩ | ⟨addr, byte, hs, ht⟩ := hbranch
  · rw [hs, ht]
    rfl
  · rw [hs, ht]
    rfl
  · rw [hs, ht]
    exact clearResultFlags_exec_withResultFlags i z v n (fetchedState (instrLength i) s)
  · rw [hs, ht]
    rfl

theorem dataByte_withEarlierReports (i : Instr) (rs : List Report) (s : State) :
    dataByte i (withEarlierReports rs s) = dataByte i s := by
  cases i <;> rfl

theorem exec_withEarlierReports (i : Instr) (rs : List Report) (s : State) :
    exec i (withEarlierReports rs s) = mapNext (withEarlierReports rs) (exec i s) := by
  rcases instr_cases i with hl | ha | ⟨target, rfl⟩
  · rw [exec_of_isLoad hl, exec_of_isLoad hl, dataByte_withEarlierReports]
    rfl
  · rw [exec_of_isAdd ha, exec_of_isAdd ha, dataByte_withEarlierReports]
    rfl
  · rfl

theorem reportInvalid_withEarlierReports (addr : Word) (byte : Byte) (rs : List Report) (s : State) :
    reportInvalid addr byte (withEarlierReports rs s) = withEarlierReports rs (reportInvalid addr byte s) := by
  simp [reportInvalid, withEarlierReports]

/-- Settles O30: both states take the same branch, and a record is appended after all others. -/
theorem reportsAreOutputOnly : Obligations.ReportsAreOutputOnly := by
  intro s rs
  have hbranch := step_cases_of_same_fetch (s := s) (t := withEarlierReports rs s) rfl rfl rfl
  obtain ⟨hs, ht⟩ | ⟨hs, ht⟩ | ⟨i, hs, ht⟩ | ⟨addr, byte, hs, ht⟩ := hbranch
  · rw [hs, ht]
    rfl
  · rw [hs, ht]
    rfl
  · rw [hs, ht]
    exact exec_withEarlierReports i rs (fetchedState (instrLength i) s)
  · rw [hs, ht]
    exact congrArg Host.Outcome.next (reportInvalid_withEarlierReports addr byte rs (fetchedState 1 s))

end Sys2Proof.Machine
end

section
/-! Whole `execute` calls (40_engine.md R86, R97, R98): the passes of a call against the instructions run without a budget. The
counter is read by nothing but the loop's test, so a call runs the instructions of the state between calls. -/

namespace Sys2Proof.Machine

/-- A state with another counter. -/
def withCycles (cycles : Option Int) (s : State) : State :=
  { s with cycles := cycles }

theorem withCycles_none {s : State} (h : s.cycles = none) : withCycles none s = s := by
  rw [withCycles, ← h]

theorem dataByte_withCycles (i : Instr) (cycles : Option Int) (s : State) :
    dataByte i (withCycles cycles s) = dataByte i s := by
  cases i <;> rfl

theorem fetchedState_withCycles (n : Nat) (cycles : Option Int) (s : State) :
    fetchedState n (withCycles cycles s) = withCycles (cycles.map fun c => c - n) (fetchedState n s) := rfl

theorem pushWord_withCycles (w : Word) (cycles : Option Int) (s : State) :
    pushWord w (withCycles cycles s) = withCycles (cycles.map fun c => c - 4) (pushWord w s) := by
  have hcycles : (pushWord w (withCycles cycles s)).cycles = cycles.map fun c => c - 4 :=
    pushWord_cycles w (withCycles cycles s)
  rw [← hcycles]
  rfl

/-- A handler does the same whatever the counter holds, and charges it. -/
theorem exec_withCycles (i : Instr) (cycles : Option Int) (s : State) :
    exec i (withCycles cycles s) = mapNext (withCycles (cycles.map fun c => c - handlerCycles i)) (exec i s) := by
  rcases instr_cases i with hl | ha | ⟨target, rfl⟩
  · rw [exec_of_isLoad hl, exec_of_isLoad hl, dataByte_withCycles]
    rfl
  · rw [exec_of_isAdd ha, exec_of_isAdd ha, dataByte_withCycles]
    rfl
  · rw [exec_jsrAbs_eq_jump, exec_jsrAbs_eq_jump, pushWord_withCycles]
    rfl

theorem stepCycles_of_fetchInstr {s u : State} {i : Instr} (h : fetchInstr s = .instr i u) : stepCycles s = cycleTotal i := by
  rw [stepCycles, h]

/-- `Step()` does the same whatever the counter holds, and charges it the total. -/
theorem instrStep_withCycles (cycles : Option Int) (s : State) :
    instrStep (withCycles cycles s) = mapNext (withCycles (cycles.map fun c => c - stepCycles s)) (instrStep s) := by
  rcases fetchInstr_cases s with ⟨i, rest, hd, hf⟩ | ⟨-, hd, hf⟩
  · have hd' : decode (bytesAtPc (withCycles cycles s)) = .ok (i, rest) := hd
    rw [instrStep_of_decode_ok hd, instrStep_of_decode_ok hd', fetchedState_withCycles, exec_withCycles,
      stepCycles_of_fetchInstr hf, ← instrLength_add_handlerCycles, Option.map_map]
    congr 3
    funext c
    simp [sub_sub]
  · have hd' : decode (bytesAtPc (withCycles cycles s)) = .error _ := hd
    rw [instrStep_of_decode_error hd, instrStep_of_decode_error hd', stepCycles, hf]
    rfl

/-- `Step()` with no call running creates no counter. -/
theorem cycles_of_instrStep {s t : State} (h : s.cycles = none) (ht : instrStep s = .next t) : t.cycles = none := by
  have hstep := instrStep_withCycles none s
  rw [withCycles_none h, ht] at hstep
  rw [Host.Outcome.next.inj hstep]
  rfl

theorem stepCycles_pos (s : State) : 0 < stepCycles s := by
  rcases fetchInstr_cases s with ⟨i, _, -, hf⟩ | ⟨-, -, hf⟩
  · rw [stepCycles_of_fetchInstr hf]
    cases i <;> simp [cycleTotal, jsrCycles]
  · rw [stepCycles, hf]
    exact Nat.one_pos

theorem runCall_of_no_call {s : State} (h : s.cycles = none) (fuel : Nat) : runCall fuel s = .next s := by
  cases fuel <;> simp [runCall, h]

theorem runCall_of_no_budget {s : State} (h : s.cycles = none) {c : Int} (hc : c ≤ 0) {fuel : Nat} (hfuel : 0 < fuel) :
    runCall fuel (withCycles (some c) s) = .next s := by
  obtain ⟨fuel, rfl⟩ := Nat.exists_eq_succ_of_ne_zero hfuel.ne'
  have hreturn : step (withCycles (some c) s) = .next s := by
    rw [step_of_no_budget rfl hc]
    exact congrArg Host.Outcome.next (withCycles_none h)
  simp only [runCall, hreturn]
  exact runCall_of_no_call h fuel

theorem step_withCycles {s t : State} (ht : instrStep s = .next t) {c : Int} (hc : 0 < c) :
    step (withCycles (some c) s) = .next (withCycles (some (c - stepCycles s)) t) := by
  rw [step_of_budget rfl hc, instrStep_withCycles, ht]
  rfl

theorem runCall_of_budget {s t : State} (ht : instrStep s = .next t) {c : Int} (hc : 0 < c) (fuel : Nat) :
    runCall (fuel + 1) (withCycles (some c) s) = runCall fuel (withCycles (some (c - stepCycles s)) t) := by
  simp only [runCall, step_withCycles ht hc]
  rfl

theorem runInstrs_succ {s t : State} (ht : instrStep s = .next t) (k : Nat) : runInstrs (k + 1) s = runInstrs k t := by
  rw [runInstrs, ht]

theorem runCycles_succ {s t : State} (ht : instrStep s = .next t) (k : Nat) :
    runCycles (k + 1) s = stepCycles s + runCycles k t := by
  rw [runCycles, ht]

/-- The least number of instructions whose totals reach a budget (40_engine.md R97). -/
def LeastCount (budget : Int) (s : State) (k : Nat) : Prop :=
  budget ≤ runCycles k s ∧ ∀ j, j < k → (runCycles j s : Int) < budget

theorem leastCount_zero {budget : Int} (h : budget ≤ 0) (s : State) : LeastCount budget s 0 :=
  ⟨h, fun _ hj => absurd hj (Nat.not_lt_zero _)⟩

theorem leastCount_succ {budget : Int} (hpos : 0 < budget) {s t : State} (ht : instrStep s = .next t) {k : Nat}
    (h : LeastCount (budget - stepCycles s) t k) : LeastCount budget s (k + 1) := by
  obtain ⟨hreach, hleast⟩ := h
  refine ⟨?_, fun j hj => ?_⟩
  · rw [runCycles_succ ht]
    omega
  · cases j with
    | zero => exact hpos
    | succ j =>
      have hj' := hleast j (Nat.lt_of_succ_lt_succ hj)
      rw [runCycles_succ ht]
      omega

/-- A counter of at most `n` is used up by at most `n` instructions, and any more than `n` passes run them and return. -/
theorem exists_leastCount_runCall (n : Nat) {s : State} (h : s.cycles = none) {c : Int} (hc : c ≤ n) :
    ∃ k t, LeastCount c s k ∧ k ≤ n ∧ runInstrs k s = .next t ∧ t.cycles = none ∧
      ∀ fuel, n < fuel → runCall fuel (withCycles (some c) s) = .next t := by
  induction n generalizing s c with
  | zero =>
    exact ⟨0, s, leastCount_zero hc s, le_rfl, rfl, h, fun _ => runCall_of_no_budget h hc⟩
  | succ n ih =>
    by_cases hpos : 0 < c
    · obtain ⟨u, hu⟩ := instrStep_next s
      have hcharged := stepCycles_pos s
      obtain ⟨k, t, hleast, hk, hrun, ht, hcall⟩ := ih (cycles_of_instrStep h hu) (c := c - stepCycles s) (by omega)
      refine ⟨k + 1, t, leastCount_succ hpos hu hleast, Nat.succ_le_succ hk, (runInstrs_succ hu k).trans hrun, ht, ?_⟩
      intro fuel hfuel
      obtain ⟨fuel, rfl⟩ := Nat.exists_eq_succ_of_ne_zero (Nat.ne_zero_of_lt hfuel)
      exact (runCall_of_budget hu hpos fuel).trans (hcall fuel (Nat.lt_of_succ_lt_succ hfuel))
    · have hle : c ≤ 0 := Int.not_lt.1 hpos
      exact ⟨0, s, leastCount_zero hle s, Nat.zero_le _, rfl, h,
        fun _ hfuel => runCall_of_no_budget h hle (Nat.zero_lt_of_lt hfuel)⟩

theorem execute_of_admitted {s : State} (h : s.cycles = none) (hp : s.powerUp = []) (budget : BitVec 32) :
    execute budget s = runCall (budget.toNat + 1) (withCycles (some (budget.toNat : Int)) s) := by
  rw [execute, beginCall_of_admitted h hp]
  rfl

/-- What an admitted call does (40_engine.md R97, R98). -/
theorem exists_leastCount_execute {s : State} (h : s.cycles = none) (hp : s.powerUp = []) (budget : BitVec 32) :
    ∃ k t, LeastCount budget.toNat s k ∧ k ≤ budget.toNat ∧ runInstrs k s = .next t ∧ t.cycles = none ∧
      execute budget s = .next t := by
  obtain ⟨k, t, hleast, hk, hrun, ht, hcall⟩ := exists_leastCount_runCall budget.toNat h le_rfl
  exact ⟨k, t, hleast, hk, hrun, ht, (execute_of_admitted h hp budget).trans (hcall _ (Nat.lt_succ_self _))⟩

/-- Settles O34: by induction on the budget, every instruction charging at least 1 cycle. -/
theorem executeRunsLeastSufficientCount : Obligations.ExecuteRunsLeastSufficientCount := by
  intro s budget h hp _
  obtain ⟨k, t, ⟨hreach, hleast⟩, -, hrun, -, hexec⟩ := exists_leastCount_execute h hp budget
  exact ⟨k, t, hrun, hexec, Int.ofNat_le.1 hreach, fun j hj => Int.ofNat_lt.1 (hleast j hj)⟩

/-- Settles O35: the count of instructions is at most the budget, so a budget of 0 runs none. -/
theorem executeReturns : Obligations.ExecuteReturns := by
  intro s budget h hp
  obtain ⟨k, t, -, hk, hrun, ht, hexec⟩ := exists_leastCount_execute h hp budget
  refine ⟨⟨t, k, hexec, ht, hk, hrun⟩, ?_⟩
  rw [execute_of_admitted h hp]
  exact runCall_of_no_budget h le_rfl Nat.one_pos

theorem core_run_succ {M : Host.Core} {s t : M.State} (h : M.step s = .next t) (k : Nat) : M.run (k + 1) s = M.run k t := by
  simp only [Host.Core.run, h]

/-- The machine behind the host's interface takes the passes of a call, and is idle after its return. -/
theorem core_run_eq_runCall (k : Nat) (s : State) : Host.Core.run core k s = runCall k s := by
  induction k generalizing s with
  | zero => rfl
  | succ k ih =>
    obtain ⟨t, ht⟩ := step_next s
    refine (core_run_succ (M := core) ht k).trans ((ih t).trans ?_)
    cases hc : s.cycles with
    | none =>
      cases (step_of_no_call hc).symm.trans ht
      rw [runCall_of_no_call hc, runCall_of_no_call hc]
    | some c =>
      simp only [runCall, hc, ht]
      rfl

theorem beginCall_eq_next {budget : BitVec 32} {s u : State} (h : beginCall budget s = .next u) :
    s.cycles = none ∧ s.powerUp = [] ∧ u = withCycles (some (budget.toNat : Int)) s := by
  unfold beginCall at h
  split_ifs at h with hcall hleft
  cases h
  exact ⟨Option.not_isSome_iff_eq_none.1 hcall, not_not.1 hleft, rfl⟩

/-- Settles O36: any number of passes above the budget gives what `execute`'s own number gives. -/
theorem executeIsTheMachineRun : Obligations.ExecuteIsTheMachineRun := by
  intro s u budget k hbegin hk
  obtain ⟨h, hp, rfl⟩ := beginCall_eq_next hbegin
  obtain ⟨_, t, -, -, -, -, hcall⟩ := exists_leastCount_runCall budget.toNat h le_rfl
  rw [core_run_eq_runCall, execute_of_admitted h hp, hcall k hk, hcall _ (Nat.lt_succ_self _)]

theorem runInstrs_one (s : State) : runInstrs 1 s = instrStep s := by
  obtain ⟨t, ht⟩ := instrStep_next s
  rw [runInstrs_succ ht, ht, runInstrs]

/-- A budget above 0 that the first instruction's total reaches runs that instruction and no other. -/
theorem execute_of_le_stepCycles {s : State} (h : s.cycles = none) (hp : s.powerUp = []) {budget : BitVec 32}
    (hpos : 0 < budget.toNat) (hle : budget.toNat ≤ stepCycles s) : execute budget s = instrStep s := by
  obtain ⟨t, ht⟩ := instrStep_next s
  have hleft : (budget.toNat : Int) - stepCycles s ≤ 0 := by omega
  rw [execute_of_admitted h hp, runCall_of_budget ht (Int.natCast_pos.2 hpos), ht]
  exact runCall_of_no_budget (cycles_of_instrStep h ht) hleft hpos

theorem powerUp_of_instrStep {s t : State} (h : instrStep s = .next t) : t.powerUp = s.powerUp :=
  (stepFrame_of_stepsTo (stepsTo_of_step (step_withCycles h Int.one_pos))).powerUp

/-- Settles O37: a total of 1 or 2 is reached by the first instruction, and the state it leaves admits the next call. -/
theorem singleStepping : Obligations.SingleStepping := by
  intro s h hp
  obtain ⟨t, ht⟩ := instrStep_next s
  have hone {u : State} (hu : u.cycles = none) (hpu : u.powerUp = []) : execute 1 u = runInstrs 1 u :=
    (execute_of_le_stepCycles hu hpu (budget := 1) Nat.one_pos (stepCycles_pos u)).trans (runInstrs_one u).symm
  refine ⟨hone h hp, ?_, fun h2 => ?_⟩
  · rw [hone h hp, runInstrs_one, ht, runInstrs_succ ht]
    exact hone (cycles_of_instrStep h ht) ((powerUp_of_instrStep ht).trans hp)
  · exact (execute_of_le_stepCycles h hp (budget := 2) Nat.two_pos h2).trans (runInstrs_one s).symm

end Sys2Proof.Machine
end

section
/-! The model's invariant: kept by every step, and at a boundary between calls a matter of memory and reports only. -/

namespace Sys2Proof.Machine

/-- Between calls the invariant speaks of memory and the report stream only. -/
theorem machineInv_of_no_call {s : State} (h : s.cycles = none) (hmem : s.mem.wf = true)
    (hreports : ∀ r ∈ s.reports, r.byte ∉ opcodeBytes) : MachineInv s :=
  ⟨hmem, hreports, fun hc => absurd h hc, fun _ hc => nomatch h.symm.trans hc⟩

theorem cycleTotal_le (i : Instr) : cycleTotal i ≤ 7 := by
  cases i <;> simp [cycleTotal, jsrCycles]

/-- What one instruction keeps: it charges at most 7 cycles and writes no power-up item. -/
theorem machineInv_of_charged {s t : State} {c : Int} {n : Nat} (inv : MachineInv s) (h : s.cycles = some c) (hc : 0 < c)
    (hn : n ≤ 7) (hcycles : t.cycles = some (c - n)) (hpowerUp : t.powerUp = s.powerUp) (hmem : t.mem.wf = true)
    (hreports : ∀ r ∈ t.reports, r.byte ∉ opcodeBytes) : MachineInv t := by
  refine ⟨hmem, hreports, fun _ => hpowerUp.trans (inv.call_admitted (by simp [h])), fun c' hc' => ?_⟩
  obtain ⟨-, hlt⟩ := inv.cycles_bounds c h
  cases hcycles.symm.trans hc'
  omega

/-- Settles O31: each branch of a step keeps the invariant. -/
theorem stepKeepsInv : Obligations.StepKeepsInv := by
  intro s t inv ht
  cases stepsTo_of_step ht with
  | idle => exact inv
  | callReturns => exact machineInv_of_no_call rfl inv.mem_wf inv.reports_invalid
  | load h hc => exact machineInv_of_charged inv h hc (cycleTotal_le _) rfl rfl inv.mem_wf inv.reports_invalid
  | add h hc => exact machineInv_of_charged inv h hc (cycleTotal_le _) rfl rfl inv.mem_wf inv.reports_invalid
  | jsr target h hc =>
    exact machineInv_of_charged inv h hc le_rfl (cycles_pushWord_fetchedState h (s.pc + 2)) rfl
      (mem_wf_pushWord (s := fetchedState 3 s) inv.mem_wf (s.pc + 2)) inv.reports_invalid
  | invalid h hc hop =>
    refine machineInv_of_charged inv h hc (n := 1) (by decide) rfl rfl inv.mem_wf ?_
    intro r hr
    rcases List.mem_append.1 hr with hold | hnew
    · exact inv.reports_invalid r hold
    · cases List.mem_singleton.1 hnew
      exact (opcodeOfByte_eq_none_iff _).1 hop

/-- Settles O32: no call runs, memory is empty and nothing has been reported. -/
theorem resetAndConstructionMeetInv : Obligations.ResetAndConstructionMeetInv :=
  ⟨machineInv_of_no_call rfl rfl (fun _ h => nomatch h), machineInv_of_no_call rfl rfl (fun _ h => nomatch h)⟩

/-- What every step keeps, the passes of a call keep. -/
theorem runCall_keeps {P : State → Prop} (hstep : ∀ s t, P s → step s = .next t → P t) {fuel : Nat} {s t : State} (h : P s)
    (hrun : runCall fuel s = .next t) : P t := by
  induction fuel generalizing s with
  | zero =>
    cases hrun
    exact h
  | succ fuel ih =>
    obtain ⟨u, hu⟩ := step_next s
    cases hc : s.cycles with
    | none =>
      simp only [runCall, hc] at hrun
      cases hrun
      exact h
    | some c =>
      simp only [runCall, hc, hu] at hrun
      exact ih (hstep s u h hu) hrun

/-- A call that completes was admitted, and its passes have run. -/
theorem execute_eq_next {budget : BitVec 32} {s t : State} (h : execute budget s = .next t) :
    s.cycles = none ∧ s.powerUp = [] ∧
      runCall (budget.toNat + 1) (withCycles (some (budget.toNat : Int)) s) = .next t := by
  unfold execute at h
  cases hbegin : beginCall budget s with
  | next u =>
    obtain ⟨hcall, hpowerUp, rfl⟩ := beginCall_eq_next hbegin
    rw [hbegin] at h
    exact ⟨hcall, hpowerUp, h⟩
  | fault f => exact absurd hbegin (beginCall_ne_fault budget s f)
  | refused r => simp [hbegin] at h

theorem execute_keeps_inv {budget : BitVec 32} {s t : State} (inv : MachineInv s) (h : execute budget s = .next t) :
    MachineInv t := by
  obtain ⟨-, hpowerUp, hrun⟩ := execute_eq_next h
  refine runCall_keeps stepKeepsInv ?_ hrun
  refine ⟨inv.mem_wf, inv.reports_invalid, fun _ => hpowerUp, ?_⟩
  rintro c ⟨⟩
  have hbudget := budget.isLt
  omega

theorem answerWith_eq_next {α : Type} {value : α → PortValue} {s t : State} {result : Except Fault α} {v : PortValue}
    (h : answerWith value s result = .next (v, t)) : t = s := by
  cases result with
  | ok a =>
    cases h
    rfl
  | error f => cases h

theorem storeMemory_eq_next {s t : State} {result : Except Fault Memory} {v : PortValue}
    (h : storeMemory s result = .next (v, t)) : ∃ m, result = .ok m ∧ t = withMemory m s := by
  cases result with
  | ok m =>
    cases h
    exact ⟨m, rfl, rfl⟩
  | error f => cases h

theorem returned_eq_next {o : Host.Outcome State Fault Refusal} {t : State} {v : PortValue} (h : returned o = .next (v, t)) :
    o = .next t := by
  cases o <;> cases h
  rfl

theorem cycles_eq_none_of_portDo_next {op : PortOp} {s : State} {r : PortValue × State} (h : portDo op s = .next r) :
    s.cycles = none := by
  cases hc : s.cycles with
  | none => rfl
  | some c => cases (portDo_of_call hc op).symm.trans h

/-- Everything an operation of the host that completes can lead to. -/
inductive PortLeadsTo (s : State) : PortOp → State → Prop where
  | reads (op : PortOp) : PortLeadsTo s op s
  | stores (op : PortOp) (m : Memory) (hm : s.mem.wf = true → m.wf = true) : PortLeadsTo s op (withMemory m s)
  | newProcessor : PortLeadsTo s .newProcessor (newProcessor s)
  | reset : PortLeadsTo s .reset (resetProcessor s)
  | execute {budget : BitVec 32} {t : State} (h : execute budget s = .next t) : PortLeadsTo s (.execute budget) t
  | setReg16 (r : Reg16) (v : Word) : PortLeadsTo s (.setReg16 r v) (setReg16 s r v)
  | setReg8 (r : Reg8) (v : Byte) : PortLeadsTo s (.setReg8 r v) (setReg8 s r v)
  | setFlag (f : FlagName) (bit : Bool) : PortLeadsTo s (.setFlag f bit) (setFlag s f bit)

theorem portLeadsTo_of_portDo {op : PortOp} {s t : State} {value : PortValue} (h : portDo op s = .next (value, t)) :
    PortLeadsTo s op t := by
  rw [portDo.eq_def, cycles_eq_none_of_portDo_next h] at h
  cases op with
  | memGet index => exact answerWith_eq_next h ▸ .reads _
  | readWord index => exact answerWith_eq_next h ▸ .reads _
  | memSet index v =>
    obtain ⟨m, hm, rfl⟩ := storeMemory_eq_next h
    exact .stores _ m fun hwf => Memory.wf_writeByte hwf hm
  | writeWord index v =>
    obtain ⟨m, hm, rfl⟩ := storeMemory_eq_next h
    exact .stores _ m fun hwf => Memory.wf_writeWord hwf hm
  | execute budget => exact .execute (returned_eq_next h)
  | newMemory =>
    cases h
    exact .stores _ [] fun _ => rfl
  | newProcessor =>
    cases h
    exact .newProcessor
  | reset =>
    cases h
    exact .reset
  | setReg16 r v =>
    cases h
    exact .setReg16 r v
  | setReg8 r v =>
    cases h
    exact .setReg8 r v
  | setFlag f bit =>
    cases h
    exact .setFlag f bit
  | _ =>
    cases h
    exact .reads _

/-- Settles O33: an operation stores canonical memory, empties or keeps the report stream, or runs a whole call. -/
theorem hostOperationsKeepInv : Obligations.HostOperationsKeepInv := by
  intro op s t value inv h
  have hidle := cycles_eq_none_of_portDo_next h
  have hkept {u : State} (hc : u.cycles = s.cycles) (hm : u.mem.wf = true) (hr : u.reports = s.reports) : MachineInv u :=
    machineInv_of_no_call (hc.trans hidle) hm (hr ▸ inv.reports_invalid)
  cases portLeadsTo_of_portDo h with
  | reads => exact inv
  | stores _ m hm => exact hkept rfl (hm inv.mem_wf) rfl
  | newProcessor => exact machineInv_of_no_call rfl inv.mem_wf (fun _ hr => nomatch hr)
  | reset => exact hkept rfl inv.mem_wf rfl
  | execute hexec => exact execute_keeps_inv inv hexec
  | setReg16 r v => cases r <;> exact hkept rfl inv.mem_wf rfl
  | setReg8 r v => cases r <;> exact hkept rfl inv.mem_wf rfl
  | setFlag f bit => exact hkept rfl inv.mem_wf rfl

end Sys2Proof.Machine
end

section
/-! The memory component's words (20_memory.md sections 2, 3 and 5) and the flags viewed as one byte (10_state.md R27). -/

namespace Sys2Proof.Machine

theorem nextIndex_ne (index : Nat) : nextIndex index ≠ index := by
  rw [nextIndex, memorySize]
  omega

/-- Settles O40: the two bytes are written at different addresses, also where the second is 0x0000. -/
theorem wordRoundTrip : Obligations.WordRoundTrip := by
  intro m index v hm hi
  have hsize : index < memorySize := hi
  have hwf : (m.write index (loByte v)).wf = true := Memory.wf_write hm hi _
  have hread (m' : Memory) : m'.readWord index = .ok (hiLo (m'.read (nextIndex index)) (m'.read index)) := if_pos hsize
  have hlow : ((m.write index (loByte v)).write (nextIndex index) (hiByte v)).read index = loByte v := by
    rw [Memory.read_write_other _ _ (nextIndex_ne index).symm, Memory.read_write_same hm]
  have hhigh : ((m.write index (loByte v)).write (nextIndex index) (hiByte v)).read (nextIndex index) = hiByte v :=
    Memory.read_write_same hwf _ _
  refine ⟨_, if_pos hsize, ?_, hlow, hhigh, fun other hne hne' => ?_, hread m⟩
  · rw [hread, hhigh, hlow, hiLo_hiByte_loByte]
  · exact (Memory.read_write_other _ _ hne').trans (Memory.read_write_other _ _ hne)

theorem getLsbD_bitAt (bit : Bool) {position : Nat} (hposition : position < 8) (k : Nat) :
    (bitAt bit position).getLsbD k = (decide (k = position) && bit) := by
  rw [bitAt, BitVec.getLsbD_shiftLeft, BitVec.getLsbD_setWidth, BitVec.getLsbD_ofBool]
  by_cases hk : k = position
  · simp [hk, hposition]
  · have hshift : k < position ∨ k - position ≠ 0 := by omega
    rcases hshift with h | h <;> simp [hk, h]

theorem flagPosition_lt (name : FlagName) : flagPosition name < 8 := by
  cases name <;> decide

theorem getLsbD_packedFlags (f : Flags) (name : FlagName) :
    (packedFlags f).getLsbD (flagPosition name) = getFlag f name := by
  simp only [packedFlags, BitVec.getLsbD_or, getLsbD_bitAt _ (flagPosition_lt _)]
  cases name <;> simp [flagPosition, getFlag]

theorem unpackedFlags_packedFlags (f : Flags) : unpackedFlags (packedFlags f) = f := by
  simp only [unpackedFlags, getLsbD_packedFlags]
  rfl

/-- The layout of 10_state.md R27, as a number. -/
def weightedFlags (f : Flags) : Nat :=
  f.n.toNat * 128 + f.v.toNat * 64 + f.u.toNat * 32 + f.b.toNat * 16 + f.d.toNat * 8 + f.i.toNat * 4 + f.z.toNat * 2 +
    f.c.toNat

/-- Every one of the 256 bytes is the weighted sum of its bits. -/
theorem weightedFlags_unpackedFlags : ∀ p : Byte, weightedFlags (unpackedFlags p) = p.toNat := by
  decide

theorem toNat_packedFlags (f : Flags) : (packedFlags f).toNat = weightedFlags f := by
  rw [← weightedFlags_unpackedFlags, unpackedFlags_packedFlags]

theorem packedFlags_unpackedFlags (p : Byte) : packedFlags (unpackedFlags p) = p :=
  BitVec.eq_of_toNat_eq ((toNat_packedFlags (unpackedFlags p)).trans (weightedFlags_unpackedFlags p))

/-- Settles O46: each flag is one bit of the byte, and a byte is its bits. -/
theorem packedFlagsRoundTrip : Obligations.PackedFlagsRoundTrip :=
  ⟨fun f => ⟨unpackedFlags_packedFlags f, toNat_packedFlags f⟩, packedFlags_unpackedFlags⟩

end Sys2Proof.Machine
end

section
/-! The host's operations between calls (60_exceptions.md section 7): reset, construction, registers and flags by name, and the
admission of `execute` (70_reset_and_hazards.md R160). -/

namespace Sys2Proof.Machine

theorem portDo_reset {s : State} (h : s.cycles = none) : portDo .reset s = .next (.unit, resetProcessor s) := by
  simp [portDo, h]

theorem resetProcessor_resetProcessor (s : State) : resetProcessor (resetProcessor s) = resetProcessor s := rfl

theorem packedFlags_clear : packedFlags Flags.clear = 0x00 := by
  decide

/-- Settles O41: reset writes the same registers whatever they held, and keeps memory, reports and the counter. -/
theorem resetFromAnyState : Obligations.ResetFromAnyState := by
  refine ⟨fun s h => ⟨_, portDo_reset h, rfl, rfl, rfl, rfl, rfl, packedFlags_clear, rfl, rfl, h, ?_⟩, rfl⟩
  rw [portDo_reset (s := resetProcessor s) h, resetProcessor_resetProcessor]

theorem afterPort_newProcessor {s : State} (h : s.cycles = none) : afterPort .newProcessor s = newProcessor s := by
  simp [afterPort, portDo, h]

theorem afterPort_newMemory {s : State} (h : s.cycles = none) : afterPort .newMemory s = newMemory s := by
  simp [afterPort, portDo, h]

theorem execute_of_powerUp_left {s : State} (h : s.cycles = none) (hp : s.powerUp ≠ []) (budget : BitVec 32) :
    execute budget s = .refused .executeBeforeReset := by
  simp [execute, beginCall, h, hp]

/-- Settles O42: construction writes the values of 70_reset_and_hazards.md R155, all of `powerUp` among them. -/
theorem construction : Obligations.Construction := by
  intro s h
  rw [afterPort_newProcessor h, afterPort_newMemory h]
  exact ⟨fun _ => rfl, rfl, rfl, rfl, rfl, rfl, rfl, rfl, rfl,
    execute_of_powerUp_left (s := newProcessor s) rfl (List.cons_ne_nil _ _)⟩

theorem reg16_setReg16 (s : State) (r r' : Reg16) (v : Word) :
    reg16 (setReg16 s r v) r' = if r' = r then v else reg16 s r' := by
  cases r <;> cases r' <;> rfl

theorem reg8_setReg8 (s : State) (r r' : Reg8) (v : Byte) :
    reg8 (setReg8 s r v) r' = if r' = r then v else reg8 s r' := by
  cases r <;> cases r' <;> rfl

theorem getFlag_putFlag (f : Flags) (name name' : FlagName) (bit : Bool) :
    getFlag (putFlag f name bit) name' = if name' = name then bit else getFlag f name' := by
  cases name <;> cases name' <;> rfl

theorem portDo_getReg16 {s : State} (h : s.cycles = none) (r : Reg16) :
    portDo (.getReg16 r) s = .next (.word (reg16 s r), s) := by
  simp [portDo, h]

theorem portDo_getReg8 {s : State} (h : s.cycles = none) (r : Reg8) :
    portDo (.getReg8 r) s = .next (.byte (reg8 s r), s) := by
  simp [portDo, h]

theorem portDo_getFlag {s : State} (h : s.cycles = none) (f : FlagName) :
    portDo (.getFlag f) s = .next (.bit (getFlag s.flags f), s) := by
  simp [portDo, h]

theorem afterPort_setReg16 {s : State} (h : s.cycles = none) (r : Reg16) (v : Word) :
    afterPort (.setReg16 r v) s = setReg16 s r v := by
  simp [afterPort, portDo, h]

@[simp] theorem setReg16_cycles (s : State) (r : Reg16) (v : Word) : (setReg16 s r v).cycles = s.cycles := by
  cases r <;> rfl

@[simp] theorem setReg16_mem (s : State) (r : Reg16) (v : Word) : (setReg16 s r v).mem = s.mem := by
  cases r <;> rfl

@[simp] theorem setReg16_flags (s : State) (r : Reg16) (v : Word) : (setReg16 s r v).flags = s.flags := by
  cases r <;> rfl

@[simp] theorem reg8_setReg16 (s : State) (r : Reg16) (v : Word) (r' : Reg8) : reg8 (setReg16 s r v) r' = reg8 s r' := by
  cases r <;> cases r' <;> rfl

@[simp] theorem setReg8_cycles (s : State) (r : Reg8) (v : Byte) : (setReg8 s r v).cycles = s.cycles := by
  cases r <;> rfl

@[simp] theorem setReg8_mem (s : State) (r : Reg8) (v : Byte) : (setReg8 s r v).mem = s.mem := by
  cases r <;> rfl

@[simp] theorem setReg8_flags (s : State) (r : Reg8) (v : Byte) : (setReg8 s r v).flags = s.flags := by
  cases r <;> rfl

@[simp] theorem reg16_setReg8 (s : State) (r : Reg8) (v : Byte) (r' : Reg16) : reg16 (setReg8 s r v) r' = reg16 s r' := by
  cases r <;> cases r' <;> rfl

/-- Settles O45: a write of one name is read back under that name and leaves the others. -/
theorem hostWritesAreReadBack : Obligations.HostWritesAreReadBack := by
  intro s h
  refine ⟨fun r r' v => ?_, fun r r' v => ?_, fun f f' bit => ?_, fun r v => ?_, fun r v => ?_, fun f bit => ?_⟩
  · rw [afterPort_setReg16 h, portDo_getReg16 ((setReg16_cycles s r v).trans h), reg16_setReg16]
  · rw [afterPort_setReg8 h, portDo_getReg8 ((setReg8_cycles s r v).trans h), reg8_setReg8]
  · rw [afterPort_setFlag h, portDo_getFlag (s := setFlag s f bit) h]
    exact congrArg (fun b => Host.Outcome.next (PortValue.bit b, setFlag s f bit)) (getFlag_putFlag s.flags f f' bit)
  · rw [afterPort_setReg16 h]
    exact ⟨setReg16_mem s r v, setReg16_flags s r v, reg8_setReg16 s r v⟩
  · rw [afterPort_setReg8 h]
    exact ⟨setReg8_mem s r v, setReg8_flags s r v, reg16_setReg8 s r v⟩
  · rw [afterPort_setFlag h]
    exact ⟨rfl, fun r' => by cases r' <;> rfl, fun r' => by cases r' <;> rfl⟩

end Sys2Proof.Machine
end

section
/-! The admission of `execute` (70_reset_and_hazards.md R160): which operations of the host overwrite a power-up value, and that
none but a new construction brings one back. -/

namespace Sys2Proof.Machine

theorem execute_keeps_powerUp {budget : BitVec 32} {s t : State} (h : execute budget s = .next t) :
    t.powerUp = s.powerUp := by
  obtain ⟨-, -, hrun⟩ := execute_eq_next h
  have hkept (u v : State) (hu : u.powerUp = s.powerUp) (hstep : step u = .next v) : v.powerUp = s.powerUp :=
    (stepFrame_of_stepsTo (stepsTo_of_step hstep)).powerUp.trans hu
  refine runCall_keeps hkept ?_ hrun
  rfl

theorem execute_cycles {budget : BitVec 32} {s t : State} (h : execute budget s = .next t) : t.cycles = none := by
  obtain ⟨hs, hp, -⟩ := execute_eq_next h
  obtain ⟨_, u, -, -, -, hu, hexec⟩ := exists_leastCount_execute hs hp budget
  cases hexec.symm.trans h
  exact hu

/-- An operation that fails or is refused leaves the state; what holds of it and of the next state holds afterwards. -/
theorem afterPort_of {P : State → Prop} {op : PortOp} {s : State} (hs : P s)
    (hnext : ∀ value t, portDo op s = .next (value, t) → P t) : P (afterPort op s) := by
  cases h : portDo op s with
  | next r =>
    rw [afterPort, h]
    exact hnext r.1 r.2 h
  | fault f => rwa [afterPort_of_fault h]
  | refused r => rwa [afterPort_of_refused h]

theorem cycles_afterPort {s : State} (h : s.cycles = none) (op : PortOp) : (afterPort op s).cycles = none := by
  refine afterPort_of (P := fun t => t.cycles = none) h fun value t ht => ?_
  cases portLeadsTo_of_portDo ht with
  | newProcessor => rfl
  | execute hexec => exact execute_cycles hexec
  | setReg16 r v => exact (setReg16_cycles s r v).trans h
  | setReg8 r v => exact (setReg8_cycles s r v).trans h
  | _ => exact h

theorem setReg16_powerUp (s : State) (r : Reg16) (v : Word) : (setReg16 s r v).powerUp = s.powerUp := by
  cases r <;> rfl

theorem setReg8_powerUp (s : State) (r : Reg8) (v : Byte) :
    (setReg8 s r v).powerUp = s.powerUp.filter (fun other => other != .reg r) := by
  cases r <;> rfl

theorem setFlag_powerUp (s : State) (f : FlagName) (bit : Bool) :
    (setFlag s f bit).powerUp = s.powerUp.filter (fun other => other != .flag f) := rfl

/-- No operation but a new construction brings a power-up value back. -/
theorem powerUp_afterPort_subset {op : PortOp} (hop : op ≠ .newProcessor) (s : State) :
    (afterPort op s).powerUp ⊆ s.powerUp := by
  refine afterPort_of (P := fun t => t.powerUp ⊆ s.powerUp) (List.Subset.refl _) fun value t ht => ?_
  cases portLeadsTo_of_portDo ht with
  | newProcessor => exact absurd rfl hop
  | reset => exact List.nil_subset _
  | execute hexec => exact (execute_keeps_powerUp hexec).symm ▸ List.Subset.refl _
  | setReg16 r v => exact setReg16_powerUp s r v ▸ List.Subset.refl _
  | setReg8 r v =>
    rw [setReg8_powerUp]
    exact List.filter_subset_self _
  | setFlag f bit =>
    rw [setFlag_powerUp]
    exact List.filter_subset_self _
  | _ => exact List.Subset.refl _

/-- An operation after which an item holds no power-up value. -/
def Overwrites (op : PortOp) (item : PowerUpItem) : Prop :=
  ∀ s : State, s.cycles = none → item ∉ (afterPort op s).powerUp

theorem overwrites_setReg8 (r : Reg8) (v : Byte) : Overwrites (.setReg8 r v) (.reg r) := by
  intro s h
  simp [afterPort_setReg8 h, setReg8_powerUp]

theorem overwrites_setFlag (f : FlagName) (bit : Bool) : Overwrites (.setFlag f bit) (.flag f) := by
  intro s h
  simp [afterPort_setFlag h, setFlag_powerUp]

/-- Once an operation has overwritten an item, it holds no power-up value after the rest, in whatever order they came. -/
theorem not_mem_powerUp_foldl {item : PowerUpItem} {ops : List PortOp} (hnew : PortOp.newProcessor ∉ ops) {s : State}
    (h : s.cycles = none) (hitem : item ∉ s.powerUp ∨ ∃ op ∈ ops, Overwrites op item) :
    item ∉ (ops.foldl (fun t op => afterPort op t) s).powerUp := by
  induction ops generalizing s with
  | nil =>
    rcases hitem with hs | ⟨op, hmem, -⟩
    · exact hs
    · cases hmem
  | cons op ops ih =>
    obtain ⟨hop, hrest⟩ := not_or.1 (mt List.mem_cons.2 hnew)
    refine ih hrest (cycles_afterPort h op) ?_
    rcases hitem with hs | ⟨op', hmem, hover⟩
    · exact .inl fun hin => hs (powerUp_afterPort_subset (Ne.symm hop) s hin)
    · rcases List.mem_cons.1 hmem with rfl | hlater
      · exact .inl (hover s h)
      · exact .inr ⟨op', hlater, hover⟩

/-- Settles O43: `beginCall` looks at `powerUp` only, and the eleven writes overwrite its eleven items. -/
theorem executeAdmission : Obligations.ExecuteAdmission := by
  refine ⟨fun s budget h => ⟨fun hp => execute_of_powerUp_left h hp budget, fun hp => ?_, ?_⟩, ?_⟩
  · obtain ⟨_, t, -, -, -, -, hexec⟩ := exists_leastCount_execute h hp budget
    exact ⟨t, hexec⟩
  · rw [afterPort, portDo_reset h, resetProcessor_powerUp]
  · intro ops s h hnew hregs hflags
    refine List.eq_nil_iff_forall_not_mem.2 fun item => not_mem_powerUp_foldl hnew h (.inr ?_)
    cases item with
    | reg r =>
      obtain ⟨v, hv⟩ := hregs r
      exact ⟨_, hv, overwrites_setReg8 r v⟩
    | flag f =>
      obtain ⟨bit, hbit⟩ := hflags f
      exact ⟨_, hbit, overwrites_setFlag f bit⟩

end Sys2Proof.Machine
end
